-- ==== Sys2Proof/Word.lean ====
section
/-! DEFINITION. The words of the block: command words, samples, CRC values (00_scope.md R5, R8). -/

namespace Sys2Proof

/-- A 32-bit command word or register value (30_encoding.md R80, 10_state.md R30 to R33). -/
abbrev Word := BitVec 32

/-- A 16-bit sample, read as two's complement (00_scope.md R5; log 25). -/
abbrev Sample := BitVec 16

/-- A value of the 16-bit CRC register (10_state.md R21). -/
abbrev Crc := BitVec 16

end Sys2Proof
end

