-- ==== Sys2Proof/Syntax.lean ====
section
/-! DEFINITION. The twelve commands (30_encoding.md R83), the five formats (R81) and the two
command errors (60_exceptions.md R221). -/

namespace Sys2Proof

/-- One constructor per row of spec/opcode_table.json. A bit operand is a `Bool`, a byte and a word
are bit vectors, and the preamble count is a natural number (R8, R82). -/
inductive Instr where
  /-- `NOP`, format A (R190). -/
  | nop
  /-- `SYM_BIT b`, format B (R112). -/
  | symBit (b : Bool)
  /-- `SYM_PREAMBLE n`, format N (R113). -/
  | symPreamble (n : Nat)
  /-- `SYM_SYNC`, format A (R114). -/
  | symSync
  /-- `SYM_SILENCE`, format A (R115). -/
  | symSilence
  /-- `CRC_RESET`, format A (R142). -/
  | crcReset
  /-- `CRC_BIT b`, format B (R143). -/
  | crcBit (b : Bool)
  /-- `FR_BIT b`, format B (R160). -/
  | frBit (b : Bool)
  /-- `FR_BYTE v`, format C (R161). -/
  | frByte (v : BitVec 8)
  /-- `FR_WORD v`, format W (R162). -/
  | frWord (v : BitVec 16)
  /-- `FR_CRCWORD`, format A (R163). -/
  | frCrcWord
  /-- `FLUSH`, format A (R191). -/
  | flush
  deriving DecidableEq, Repr

/-- The five command formats (R81). -/
inductive Format where
  /-- No operand. -/
  | A
  /-- One bit, `w[0]`. -/
  | B
  /-- One byte, `w[7:0]`. -/
  | C
  /-- One 16-bit word, `w[15:0]`. -/
  | W
  /-- A 24-bit count, `w[23:0]`. -/
  | N
  deriving DecidableEq, Repr

/-- The two ways a command word is rejected (R221). -/
inductive CmdError where
  /-- Code 1: `w[31:28]` is 0xC, 0xD, 0xE or 0xF (R84). -/
  | illegalOpcode
  /-- Code 2: a defined opcode with a 1 in a bit its format reserves (R85). -/
  | reservedField
  deriving DecidableEq, Repr

end Sys2Proof
end

