-- ==== Sys2Proof/WellFormed.lean ====
section
/-! DEFINITION. Which commands have an encoding (30_encoding.md R82). The types of the operands already
bound a bit, a byte and a word; only the preamble count, a natural number, needs a check. -/

namespace Sys2Proof

/-- The count operand of format N is below 2^24 (R82: "a natural number from 0 to 16777215"). -/
def Instr.countInRange : Instr → Bool
  | .symPreamble n => decide (n < 2 ^ 24)
  | .nop | .symBit _ | .symSync | .symSilence | .crcReset | .crcBit _ | .frBit _ | .frByte _
  | .frWord _ | .frCrcWord | .flush => true

/-- A command that some command word encodes. -/
def Instr.wellFormed (i : Instr) : Bool := i.countInRange

end Sys2Proof
end

