-- ==== Sys2Proof/Decode.lean ====
section
/-! DEFINITION. Decoding a command word (30_encoding.md R80 to R87), total on all 32-bit words and
rejecting by name, and the encoder written from the same tables. -/

namespace Sys2Proof

/-- The opcode field `OP = w[31:28]` (R80). -/
def opField (w : Word) : BitVec 4 := w.extractLsb' 28 4

/-- Format B's operand `b = w[0]` (R82). -/
def bitOperand (w : Word) : Bool := w.getLsbD 0

/-- Format C's operand `v = w[7:0]` (R82). -/
def byteOperand (w : Word) : BitVec 8 := w.extractLsb' 0 8

/-- Format W's operand `v = w[15:0]` (R82). -/
def wordOperand (w : Word) : BitVec 16 := w.extractLsb' 0 16

/-- Format N's operand `n = w[23:0]`, a natural number (R82). -/
def countOperand (w : Word) : Nat := (w.extractLsb' 0 24).toNat

/-- The bits a format reserves (R81, R86). -/
def reservedMask : Format → Word
  | .A => 0x0FFFFFFF#32
  | .B => 0x0FFFFFFE#32
  | .C => 0x0FFFFF00#32
  | .W => 0x0FFF0000#32
  | .N => 0x0F000000#32

/-- The format of each defined opcode (R83); the opcodes 0xC to 0xF have none (R84). -/
def opcodeFormat : Nat → Option Format
  | 0x0 => some .A
  | 0x1 => some .B
  | 0x2 => some .N
  | 0x3 => some .A
  | 0x4 => some .A
  | 0x5 => some .A
  | 0x6 => some .B
  | 0x7 => some .B
  | 0x8 => some .C
  | 0x9 => some .W
  | 0xA => some .A
  | 0xB => some .A
  | _ => none

/-- The reserved-field check, made after the opcode check (R86). -/
def checkReserved (fmt : Format) (w : Word) (i : Instr) : Except CmdError Instr :=
  if w &&& reservedMask fmt = 0#32 then .ok i else .error .reservedField

/-- `Decode(w)` (R86): the opcode check comes first, then the reserved-field check. -/
def decode (w : Word) : Except CmdError Instr :=
  match (opField w).toNat with
  | 0x0 => checkReserved .A w .nop
  | 0x1 => checkReserved .B w (.symBit (bitOperand w))
  | 0x2 => checkReserved .N w (.symPreamble (countOperand w))
  | 0x3 => checkReserved .A w .symSync
  | 0x4 => checkReserved .A w .symSilence
  | 0x5 => checkReserved .A w .crcReset
  | 0x6 => checkReserved .B w (.crcBit (bitOperand w))
  | 0x7 => checkReserved .B w (.frBit (bitOperand w))
  | 0x8 => checkReserved .C w (.frByte (byteOperand w))
  | 0x9 => checkReserved .W w (.frWord (wordOperand w))
  | 0xA => checkReserved .A w .frCrcWord
  | 0xB => checkReserved .A w .flush
  | _ => .error .illegalOpcode

/-- The command word of a well-formed command (R81, R83): `OP` in bits 31:28, the operand in the low
bits, every other bit 0. -/
def encode : Instr → Word
  | .nop => 0x00000000#32
  | .symBit b => 0x1#4 ++ 0#27 ++ BitVec.ofBool b
  | .symPreamble n => 0x2#4 ++ 0#4 ++ BitVec.ofNat 24 n
  | .symSync => 0x30000000#32
  | .symSilence => 0x40000000#32
  | .crcReset => 0x50000000#32
  | .crcBit b => 0x6#4 ++ 0#27 ++ BitVec.ofBool b
  | .frBit b => 0x7#4 ++ 0#27 ++ BitVec.ofBool b
  | .frByte v => 0x8#4 ++ 0#20 ++ v
  | .frWord v => 0x9#4 ++ 0#12 ++ v
  | .frCrcWord => 0xA0000000#32
  | .flush => 0xB0000000#32

/-- The command word whose `nbits` lowest bits are those of `w`, every bit above them 0. -/
def tableWord (nbits w : Nat) : Word := BitVec.ofNat 32 (w % 2 ^ nbits)

/-- The command the decoder reads from a row's bits, bit 0 the least significant (a command is one
32-bit word, and bus byte order enters no rule: R53, R87). -/
def decodeTableWord (nbits w : Nat) : Option Instr :=
  match decode (tableWord nbits w) with
  | .ok i => some i
  | .error _ => none

end Sys2Proof
end

