-- ==== Sys2Proof/Config.lean ====
section
/-! DEFINITION. The implementation parameters of 00_scope.md R5, and the values the spec leaves open.
An open value is an opaque constant without a body: no proof can learn which value it has. -/

namespace Sys2Proof.Config

/-- `BUF_CAP`: capacity of the staging buffer in samples (R5). -/
def bufCap : Nat := 1024

/-- `SAMPLE_RATE`: samples per second (R5). -/
def sampleRate : Nat := 44100

/-- `SILENCE_LEN` = `SAMPLE_RATE` × 1 s: samples per silence command (R5). -/
def silenceLen : Nat := sampleRate * 1

/-- Sample width in bits (R5). -/
def sampleWidth : Nat := 16

/-- Mono (R5). -/
def channels : Nat := 1

/-- `CRC_FB`: the CRC feedback constant (R5). -/
def crcFeedback : Crc := 0x0810#16

/-- `CRC_SHIFT`: the normative shift per fold, the source's literal 2 (R5, decision D17; log 5). -/
def crcShift : Nat := 2

/-- `CRC_RESET_VAL` (R5). -/
def crcResetVal : Crc := 0x0000#16

/-- `FNAME_MAX`: the longest string the pseudo-instruction `fr.string` takes (R5, R90). -/
def fnameMax : Nat := 10

/-- Size of the register window in bytes (R5, R51). -/
def windowBytes : Nat := 16

/-- OPEN: which of the 32767 positive 16-bit values `P_POS` is, less one (I1; log 4). -/
opaque posPeakIndex : Fin 32767

/-- OPEN: which of the 32768 negative 16-bit values `P_NEG` is (I1; log 4). -/
opaque negPeakIndex : Fin 32768

/-- `P_POS`: any 16-bit two's-complement value with `P_POS > 0` (R5, R110, D11). -/
def pPos : Sample := BitVec.ofNat 16 (posPeakIndex.val + 1)

/-- `P_NEG`: any 16-bit two's-complement value with `P_NEG < 0` (R5, R110, D11). -/
def pNeg : Sample := BitVec.ofNat 16 (32768 + negPeakIndex.val)

/-- OPEN: `REG_BASE` divided by 16 (R51, I7; log 6). -/
opaque regBaseIndex : Nat

/-- `REG_BASE`: any multiple of 16 (R51). No rule of the block reads it: an access is given by its
offset in the window (R9). -/
def regBase : Nat := 16 * regBaseIndex

/-- OPEN: `SAMPLE_BYTE_ORDER`, true for big-endian; read by no rule (R53, I6; log 7). -/
opaque sampleByteOrderBig : Bool

/-- Free value: the `OCC` field of a STATUS read made while BUSY is 1, "any value in 0 .. 1024"
(R193, I3), by draw number (log 8). -/
opaque busyOcc : Nat → Fin 1025

/-- Free value: the CRC field of a CRCR read made while BUSY is 1, "any 16-bit value"
(R193, I3), by draw number (log 8). -/
opaque busyCrc : Nat → Crc

/-- Free value: what each cell of `OB` holds after a reset, "unspecified" (R34, I2), by draw number
and cell index (log 9). -/
opaque unspecifiedCell : Nat → Nat → Sample

end Sys2Proof.Config
end

