-- ==== Sys2Proof/Machine/State.lean ====
section
/-! DEFINITION. The state of the machine: the block (10_state.md R20), its ports, the agents around it
as plain data, and the counter of free values; the reasons a step can stop; the state after reset. -/

namespace Sys2Proof.Machine

/-- No step of this machine faults: execution never fails (60_exceptions.md R220), and a rejected
command word sets ERR and ERRCODE in a next state (R222; log 19). No constructor, nothing raises it:
safe. -/
inductive Fault where
  deriving DecidableEq, Repr

/-- Why a step is refused. -/
inductive Refusal where
  /-- Raised by `exec` for a command without a meaning; safe (no arm answers it). -/
  | notModelled (mnemonic : String)
  /-- Raised by a host access of a width other than 32 bits, misaligned, or at or above offset 0x10:
  "a model refuses it" (20_memory.md R52, 60_exceptions.md R224(b)); safe. -/
  | undefinedAccess
  /-- Raised by a host access while RST is asserted: "outside the contract (a model refuses them)"
  (70_reset_and_hazards.md R251); safe. -/
  | accessDuringReset
  deriving DecidableEq, Repr

/-- One host access to the register window: its width in bits, its byte offset from `REG_BASE`, and
for a write its value (00_scope.md R9, 20_memory.md R52). -/
inductive Access where
  | read (width offset : Nat)
  | write (width offset : Nat) (value : Word)
  deriving DecidableEq, Repr

/-- Which agent moves next (00_scope.md R6; log 1). -/
inductive Turn where
  /-- The host makes its next access, or goes on waiting on a held one (43_control.md R192, R194). -/
  | host
  /-- The sink becomes ready for one more chunk: it accepts the offered chunk if there is one
  (20_memory.md R57; log 2). -/
  | sink
  /-- The platform asserts RST (70_reset_and_hazards.md R250). -/
  | rstAssert
  /-- The platform asserts RST at the moment the host makes its next access: reset wins
  (60_exceptions.md R225). -/
  | rstAssertWithWrite
  /-- The platform releases RST (70_reset_and_hazards.md R251). -/
  | rstRelease
  deriving DecidableEq, Repr

/-- `CUR`: the command in flight and how far it has got (10_state.md R26). `done` counts units appended
(SYM_PREAMBLE), zero samples appended (SYM_SILENCE) or bits folded (the framer commands); `snapshot` is
the word FR_CRCWORD emits (42_framer.md R163) and 0 for every other command (log 20). -/
structure InFlight where
  cmd : Instr
  done : Nat
  snapshot : Crc
  deriving DecidableEq, Repr

/-- The machine's state. -/
structure State where
  /-- `CRC`, the running CRC register (R21). -/
  crc : Crc
  /-- `OB[0..1023]`, the staging buffer's cells, cell 0 first (R22). -/
  ob : List Sample
  /-- `OCC`, the occupancy (R23). -/
  occ : Nat
  /-- `BUSY` (R24). -/
  busy : Bool
  /-- `ERR` (R25). -/
  err : Bool
  /-- `ERRCODE` (R25). -/
  errCode : BitVec 4
  /-- `CUR` (R26). -/
  cur : Option InFlight
  /-- `PEND` (R26). -/
  pend : Option (List Sample)
  /-- The sample output stream: the chunks the sink has accepted, oldest first (20_memory.md R50, R57;
  log 15). -/
  delivered : List (List Sample)
  /-- The reset input RST is asserted (70_reset_and_hazards.md R250). -/
  rst : Bool
  /-- The word of a CMD write held while BUSY is 1 (43_control.md R194). -/
  held : Option Word
  /-- The index of the next command in the host's command list (R28; log 14). -/
  cmdIndex : Nat
  /-- Model's own: how many chunks the sink takes without making the block wait (log 2). -/
  sinkReady : Nat
  /-- Model's own: the accesses the host has still to make, next first (log 17). -/
  host : List Access
  /-- Model's own: the agents' next moves, next first (log 1). -/
  turns : List Turn
  /-- Model's own: the values the host's reads have returned, oldest first (log 16). -/
  reads : List Word
  /-- Model's own: how many free values have been drawn (log 8). -/
  draws : Nat
  deriving DecidableEq, Repr

/-- The 1024 cells of `OB` right after a reset: each holds a free value (R34, I2; log 9).
Irreducible, so that no proof unfolds 1024 cells by accident. -/
@[irreducible] def unspecifiedCells (draw : Nat) : List Sample :=
  (List.range Config.bufCap).map (Config.unspecifiedCell draw)

/-- The machine right after power-on reset (R34), nothing delivered, no access and no turn waiting. -/
def State.reset : State where
  crc := Config.crcResetVal
  ob := unspecifiedCells 0
  occ := 0
  busy := false
  err := false
  errCode := 0
  cur := none
  pend := none
  delivered := []
  rst := false
  held := none
  cmdIndex := 0
  sinkReady := 0
  host := []
  turns := []
  reads := []
  draws := 1

end Sys2Proof.Machine
end

