-- ==== Sys2Proof/Machine/Operands.lean ====
section
/-! DEFINITION. The operand forms: the bits a byte or a word emits and their order (42_framer.md R161,
R162), the sample lists of the five symbols (40_synthesizer.md R111), and how many samples they have. -/

namespace Sys2Proof.Machine

/-- A run of `k` samples at one level, `u^k` (00_scope.md R8). -/
def level (u : Sample) (k : Nat) : List Sample := List.replicate k u

/-- `BIT0 = POS^12 ++ NEG^12` (R111). -/
def symbolBit0 : List Sample := level Config.pPos 12 ++ level Config.pNeg 12

/-- `BIT1 = POS^8 ++ NEG^8` (R111). -/
def symbolBit1 : List Sample := level Config.pPos 8 ++ level Config.pNeg 8

/-- `PRE = POS^9 ++ NEG^9`, one preamble unit (R111). -/
def symbolPre : List Sample := level Config.pPos 9 ++ level Config.pNeg 9

/-- `SYNC = POS^17 ++ NEG^17` (R111). -/
def symbolSync : List Sample := level Config.pPos 17 ++ level Config.pNeg 17

/-- `ZERO` (R10, R110). -/
def zeroSample : Sample := 0x0000#16

/-- `SILENCE = ZERO^44100` (R111). -/
def symbolSilence : List Sample := level zeroSample Config.silenceLen

/-- The symbol of one protocol bit (R112). -/
def bitSymbol (b : Bool) : List Sample := if b then symbolBit1 else symbolBit0

/-- `Shape(B)`: the symbols of a list of bits, joined in order (42_framer.md R166). -/
def shape (bits : List Bool) : List Sample := bits.flatMap bitSymbol

/-- The bits of a byte in emission order, `v[0]` first (R161). -/
def byteBits (v : BitVec 8) : List Bool := (List.range 8).map v.getLsbD

/-- The bits of a 16-bit word in emission order, the low byte's first (R162). -/
def wordBits (v : BitVec 16) : List Bool :=
  byteBits (v.extractLsb' 0 8) ++ byteBits (v.extractLsb' 8 8)

/-- How many of a list's bits are 1 (R165's popcount). -/
def popcount (bits : List Bool) : Nat := bits.count true

/-- The fundamental frequency of a tone symbol in hertz, at the sink's playback rate
(40_synthesizer.md R118; no rule of the block reads it). -/
def toneFrequency (symbol : List Sample) : ℚ := (Config.sampleRate : ℚ) / (symbol.length : ℚ)

end Sys2Proof.Machine
end

