-- ==== Sys2Proof/Machine/Crc.lean ====
section
/-! DEFINITION. The CRC accumulator's one-bit update and its fold over a list of bits
(41_crc.md R140, R144). -/

namespace Sys2Proof.Machine

/-- The carry of a fold: the top bit of the high byte, XORed with 0x80 for an input 1 (R140). -/
def crcCarry (s : Crc) (b : Bool) : Bool :=
  let hb : BitVec 8 := s.extractLsb' 8 8 ^^^ (if b then 0x80#8 else 0x00#8)
  hb.getLsbD 7

/-- `CrcStep` for a given `CRC_SHIFT` (R140; R147 for shift 1). -/
def crcStepWith (shift : Nat) (s : Crc) (b : Bool) : Crc :=
  let c := crcCarry s b
  let t := if c then s ^^^ Config.crcFeedback else s
  let u := t <<< shift
  if c then u + 1#16 else u

/-- `CrcStep(s, b)` with the normative `CRC_SHIFT` (R140). -/
def crcStep (s : Crc) (b : Bool) : Crc := crcStepWith Config.crcShift s b

/-- `CrcFold(s, bits)`: the bits folded in list order (R144). -/
def crcFold (s : Crc) (bits : List Bool) : Crc := bits.foldl crcStep s

end Sys2Proof.Machine
end

