-- ==== Sys2Proof/Machine/Flags.lean ====
section
/-! DEFINITION. The status flags as the host sees them: the error codes (60_exceptions.md R221), the
words of STATUS and CRCR (10_state.md R31, R32), and the register map (20_memory.md R51, R52). -/

namespace Sys2Proof.Machine

/-- The code a rejected command word records in ERRCODE (R221). -/
def cmdErrorCode : CmdError → BitVec 4
  | .illegalOpcode => 1#4
  | .reservedField => 2#4

/-- The word of STATUS for a given `OCC` field (R31, 43_control.md R193): BUSY in bit 0, ERR in bit 1,
ERRCODE in bits 7:4, OCC in bits 26:16, every other bit 0. -/
def statusWord (occField : Nat) (errCode : BitVec 4) (err busy : Bool) : Word :=
  (((BitVec.ofNat 11 occField).setWidth 32) <<< 16) ||| ((errCode.setWidth 32) <<< 4)
    ||| (((BitVec.ofBool err).setWidth 32) <<< 1) ||| (BitVec.ofBool busy).setWidth 32

/-- The word of CRCR for a given CRC value (R32): the value in bits 15:0, bits 31:16 zero. -/
def crcrWord (crc : Crc) : Word := crc.setWidth 32

/-- The four registers of the window (R51). -/
inductive Register where
  | cmd | status | crcr | ctrl
  deriving DecidableEq, Repr

/-- The register at a byte offset of the window, for a 32-bit access at a multiple of 4 below 0x10;
no other access has a meaning (R51, R52). -/
def registerAt (width offset : Nat) : Option Register :=
  if width = 32 then
    match offset with
    | 0x00 => some .cmd
    | 0x04 => some .status
    | 0x08 => some .crcr
    | 0x0C => some .ctrl
    | _ => none
  else none

/-- The platform address of a register window offset (R51); read by no rule of the block (log 6). -/
def busAddress (offset : Nat) : Nat := Config.regBase + offset

end Sys2Proof.Machine
end

