-- ==== Sys2Proof/Machine/Ops.lean ====
section
/-! DEFINITION. The shared operations: delivery, append and flush of the staging buffer (20_memory.md
R55 to R57), the loop over a command's units, a command's acceptance and completion (43_control.md R192),
raising a command error (60_exceptions.md R222) and the resets that return from it
(70_reset_and_hazards.md R251, R252). -/

namespace Sys2Proof.Machine

/-- How far a piece of a command's execution got: it finished, or it waits in `Deliver` for the sink
(R7, R57). -/
inductive Flow where
  | ran (s : State)
  | waits (s : State)
  deriving DecidableEq, Repr

/-- `OB[0 .. OCC-1]`, the samples not yet delivered (R23, R55). -/
def State.buffered (s : State) : List Sample := s.ob.take s.occ

/-- The sample output stream as one sequence of samples (R50, R57). -/
def State.stream (s : State) : List Sample := s.delivered.flatten

/-- The samples `l` written over the cells from index `start` on (R22, R55). -/
def writeCells (ob : List Sample) (start : Nat) (l : List Sample) : List Sample :=
  ob.take start ++ l ++ ob.drop (start + l.length)

/-- The sink accepts the chunk `c`: `PEND <- none`, the chunk joins the stream (R57), and the cursor
returns to 0 (R55, R56). `OB` is left alone, as `Append` is its only writer (10_state.md R22), so the
delivered samples stay in the cells now at or above `OCC`, where the spec allows any value (I2).
DESIGN CHOICE (log 27). -/
def State.acceptChunk (s : State) (c : List Sample) : State :=
  { s with pend := none, delivered := s.delivered ++ [c], occ := 0 }

/-- `Deliver(OB[0 .. OCC-1]); OCC <- 0` (R55, R56, R57): offered to the sink, accepted at once if the
sink is ready, else the block waits with the chunk in `PEND` (log 2). -/
def deliver (s : State) : Flow :=
  match s.sinkReady with
  | 0 => .waits { s with pend := some s.buffered }
  | r + 1 => .ran ({ s with sinkReady := r }.acceptChunk s.buffered)

/-- The copy at the end of `Append(l)`, `OB[OCC + i] <- l[i]; OCC <- OCC + len(l)` (R55). -/
def State.copyIn (s : State) (l : List Sample) : State :=
  { s with ob := writeCells s.ob s.occ l, occ := s.occ + l.length }

/-- `Append(l)` (R55): deliver first when `OCC + len(l)` exceeds the capacity. -/
def append (l : List Sample) (s : State) : Flow :=
  if s.occ + l.length > Config.bufCap then
    match deliver s with
    | .ran s' => .ran (s'.copyIn l)
    | .waits s' => .waits s'
  else .ran (s.copyIn l)

/-- `Flush()` (R56): deliver the buffered samples, if there are any. -/
def flushBuffer (s : State) : Flow :=
  if s.occ > 0 then deliver s else .ran s

/-- `CRC <- CrcStep(CRC, b)` (41_crc.md R143). -/
def foldBit (b : Bool) (s : State) : State := { s with crc := crcStep s.crc b }

/-- Render one protocol bit, then fold it (42_framer.md R160; log 22). -/
def emitBit (b : Bool) (s : State) : Flow :=
  match append (bitSymbol b) s with
  | .ran s' => .ran (foldBit b s')
  | .waits s' => .waits s'

/-- Record in `CUR` that `k` units of the command in flight are done (10_state.md R26). -/
def State.withProgress (s : State) (k : Nat) : State :=
  { s with cur := s.cur.map fun c => { c with done := k } }

/-- Units `k, k+1, …` of a command, `left` of them in all: stop where one waits, with the count of
units done in `CUR` (R26). -/
def repeatUnits (unit : Nat → State → Flow) : (left k : Nat) → State → Flow
  | 0, _, s => .ran s
  | left + 1, k, s =>
    match unit k s with
    | .ran s' => repeatUnits unit left (k + 1) s'
    | .waits s' => .waits (s'.withProgress k)

/-- The bits of a list from index `k` on, each rendered and folded (R161, R162). -/
def emitBitsFrom (bits : List Bool) (k : Nat) (s : State) : Flow :=
  repeatUnits (fun j => emitBit (bits.getD j false)) (bits.length - k) k s

/-- `BUSY <- 1; CUR <- r` (43_control.md R192). -/
def State.accept (s : State) (i : Instr) (snapshot : Crc) : State :=
  { s with busy := true, cur := some ⟨i, 0, snapshot⟩ }

/-- `CUR <- none; BUSY <- 0` where the command has run to its end; a command that waits in `Deliver`
stays in flight (R192, R57). -/
def settle : Flow → State
  | .ran s => { s with cur := none, busy := false }
  | .waits s => s

/-- Accept the command `i` and execute it to its end or to the first delivery the sink does not take
at once (R192, R7). -/
def runCommand (i : Instr) (snapshot : Crc) (body : State → Flow) (s : State) :
    Host.Outcome State Fault Refusal :=
  .next (settle (body (s.accept i snapshot)))

/-- `raise CmdError(code)` (60_exceptions.md R222): set ERR and ERRCODE, change nothing else. -/
def raiseCmdError (e : CmdError) (s : State) : State :=
  { s with err := true, errCode := cmdErrorCode e }

/-- `SoftReset()` (70_reset_and_hazards.md R252): every element of the block takes its value of
10_state.md R34; `OB`'s cells take new unspecified values (log 9); the accepted stream stays. -/
def softReset (s : State) : State :=
  { s with
    crc := Config.crcResetVal
    ob := unspecifiedCells s.draws
    occ := 0
    busy := false
    err := false
    errCode := 0
    cur := none
    pend := none
    draws := s.draws + 1 }

/-- RST is asserted (R250, R251): the command in flight is abandoned, a held CMD write is dropped
undecoded (60_exceptions.md R225; log 12), and the block stays at its reset values (log 11). -/
def assertReset (s : State) : State :=
  let dropped := if s.held.isSome then 1 else 0
  { softReset s with rst := true, held := none, cmdIndex := s.cmdIndex + dropped }

/-- RST is released (R251): every element of the block holds its reset value. A release while RST is
not asserted changes nothing. -/
def releaseReset (s : State) : State :=
  if s.rst then { softReset s with rst := false } else s

end Sys2Proof.Machine
end

