-- ==== Sys2Proof/Machine/Accumulator.lean ====
section
/-! DEFINITION. The CRC accumulator commands (41_crc.md R142, R143). -/

namespace Sys2Proof.Machine

/-- The body of `CRC_RESET` (R142). -/
def crcResetBody (s : State) : Flow := .ran { s with crc := Config.crcResetVal }

/-- The body of `CRC_BIT b` (R143). -/
def crcBitBody (b : Bool) (s : State) : Flow := .ran (foldBit b s)

/-- `CRC_RESET` (R142). -/
def execCrcReset (s : State) : Host.Outcome State Fault Refusal :=
  runCommand .crcReset 0 crcResetBody s

/-- `CRC_BIT b` (R143). -/
def execCrcBit (b : Bool) (s : State) : Host.Outcome State Fault Refusal :=
  runCommand (.crcBit b) 0 (crcBitBody b) s

end Sys2Proof.Machine
end

