-- ==== Sys2Proof/Machine/Control.lean ====
section
/-! DEFINITION. The control commands (43_control.md R190, R191). -/

namespace Sys2Proof.Machine

/-- The body of `NOP` (R190). -/
def nopBody (s : State) : Flow := .ran s

/-- The body of `FLUSH` (R191). -/
def flushBody (s : State) : Flow := flushBuffer s

/-- `NOP` (R190). -/
def execNop (s : State) : Host.Outcome State Fault Refusal :=
  runCommand .nop 0 nopBody s

/-- `FLUSH` (R191). -/
def execFlush (s : State) : Host.Outcome State Fault Refusal :=
  runCommand .flush 0 flushBody s

end Sys2Proof.Machine
end

