-- ==== Sys2Proof/Machine/Framer.lean ====
section
/-! DEFINITION. The framer commands (42_framer.md R160 to R163). A `…From` definition is the command's
body with a number of its bits already folded; a whole command starts from 0. -/

namespace Sys2Proof.Machine

/-- The body of `FR_BIT b` (R160). -/
def frBitBody (b : Bool) (s : State) : Flow := emitBit b s

/-- The body of `FR_BYTE v` after `k` bits (R161). -/
def frByteFrom (v : BitVec 8) (k : Nat) (s : State) : Flow := emitBitsFrom (byteBits v) k s

/-- The body of `FR_WORD v` after `k` bits (R162). -/
def frWordFrom (v : BitVec 16) (k : Nat) (s : State) : Flow := emitBitsFrom (wordBits v) k s

/-- The body of `FR_CRCWORD` after `k` bits of the snapshot `w` (R163). -/
def frCrcWordFrom (w : Crc) (k : Nat) (s : State) : Flow := emitBitsFrom (wordBits w) k s

/-- `FR_BIT b` (R160). -/
def execFrBit (b : Bool) (s : State) : Host.Outcome State Fault Refusal :=
  runCommand (.frBit b) 0 (frBitBody b) s

/-- `FR_BYTE v` (R161). -/
def execFrByte (v : BitVec 8) (s : State) : Host.Outcome State Fault Refusal :=
  runCommand (.frByte v) 0 (frByteFrom v 0) s

/-- `FR_WORD v` (R162). -/
def execFrWord (v : BitVec 16) (s : State) : Host.Outcome State Fault Refusal :=
  runCommand (.frWord v) 0 (frWordFrom v 0) s

/-- `FR_CRCWORD` (R163): the word emitted is the CRC at the start, taken once before any fold. -/
def execFrCrcWord (s : State) : Host.Outcome State Fault Refusal :=
  runCommand .frCrcWord s.crc (frCrcWordFrom s.crc 0) s

end Sys2Proof.Machine
end

