-- ==== Sys2Proof/Machine/Synthesizer.lean ====
section
/-! DEFINITION. The synthesizer commands (40_synthesizer.md R112 to R115). A `…From` definition is the
command's body with a number of its units already done; a whole command starts from 0. -/

namespace Sys2Proof.Machine

/-- The body of `SYM_BIT b` (R112). -/
def symBitBody (b : Bool) (s : State) : Flow := append (bitSymbol b) s

/-- The body of `SYM_PREAMBLE n` after `k` units (R113). -/
def symPreambleFrom (n k : Nat) (s : State) : Flow :=
  repeatUnits (fun _ => append symbolPre) (n - k) k s

/-- The body of `SYM_SYNC` (R114). -/
def symSyncBody (s : State) : Flow := append symbolSync s

/-- The body of `SYM_SILENCE` after `k` samples (R115). -/
def symSilenceFrom (k : Nat) (s : State) : Flow :=
  repeatUnits (fun _ => append [zeroSample]) (Config.silenceLen - k) k s

/-- `SYM_BIT b` (R112). -/
def execSymBit (b : Bool) (s : State) : Host.Outcome State Fault Refusal :=
  runCommand (.symBit b) 0 (symBitBody b) s

/-- `SYM_PREAMBLE n` (R113). -/
def execSymPreamble (n : Nat) (s : State) : Host.Outcome State Fault Refusal :=
  runCommand (.symPreamble n) 0 (symPreambleFrom n 0) s

/-- `SYM_SYNC` (R114). -/
def execSymSync (s : State) : Host.Outcome State Fault Refusal :=
  runCommand .symSync 0 symSyncBody s

/-- `SYM_SILENCE` (R115). -/
def execSymSilence (s : State) : Host.Outcome State Fault Refusal :=
  runCommand .symSilence 0 (symSilenceFrom 0) s

end Sys2Proof.Machine
end

