-- ==== Sys2Proof/Machine/Dispatch.lean ====
section
/-! DEFINITION. One arm per command: the acceptance and execution of a decoded command
(log 26). -/

namespace Sys2Proof.Machine

def exec (i : Instr) (s : State) : Host.Outcome State Fault Refusal :=
  match i with
  | .nop => Sys2Proof.Machine.execNop s
  | .symBit b => Sys2Proof.Machine.execSymBit b s
  | .symPreamble n => Sys2Proof.Machine.execSymPreamble n s
  | .symSync => Sys2Proof.Machine.execSymSync s
  | .symSilence => Sys2Proof.Machine.execSymSilence s
  | .crcReset => Sys2Proof.Machine.execCrcReset s
  | .crcBit b => Sys2Proof.Machine.execCrcBit b s
  | .frBit b => Sys2Proof.Machine.execFrBit b s
  | .frByte v => Sys2Proof.Machine.execFrByte v s
  | .frWord v => Sys2Proof.Machine.execFrWord v s
  | .frCrcWord => Sys2Proof.Machine.execFrCrcWord s
  | .flush => Sys2Proof.Machine.execFlush s

end Sys2Proof.Machine
end

