-- ==== Sys2Proof/Machine/Resume.lean ====
section
/-! DEFINITION. The sink's acceptance of an offered chunk, and the rest of the command that waited for
it (20_memory.md R57, 10_state.md R26). -/

namespace Sys2Proof.Machine

/-- The rest of the command in flight: its body from the unit that waited, which now finds the buffer
empty (R26, R55 to R57). -/
def resumeBody (c : InFlight) (s : State) : Flow :=
  match c.cmd with
  | .nop => nopBody s
  | .symBit b => symBitBody b s
  | .symPreamble n => symPreambleFrom n c.done s
  | .symSync => symSyncBody s
  | .symSilence => symSilenceFrom c.done s
  | .crcReset => crcResetBody s
  | .crcBit b => crcBitBody b s
  | .frBit b => frBitBody b s
  | .frByte v => frByteFrom v c.done s
  | .frWord v => frWordFrom v c.done s
  | .frCrcWord => frCrcWordFrom c.snapshot c.done s
  | .flush => flushBody s

/-- The command in flight runs on, to its end or to its next wait; with none, nothing is left to run
(R192). -/
def resume (s : State) : State :=
  match s.cur with
  | none => settle (.ran s)
  | some c => settle (resumeBody c s)

/-- The sink becomes ready for one more chunk: it accepts the offered chunk, and the block goes on; with
no chunk offered, it will take the next one without a wait (R57; log 2). -/
def sinkTurn (s : State) : State :=
  match s.pend with
  | none => { s with sinkReady := s.sinkReady + 1 }
  | some c => resume (s.acceptChunk c)

end Sys2Proof.Machine
end

