-- ==== Sys2Proof/Machine/HostPort.lean ====
section
/-! DEFINITION. The host's accesses to the register window (43_control.md R192 to R195, 20_memory.md
R52, R54). -/

namespace Sys2Proof.Machine

/-- The value a read hands the host. -/
def State.answer (s : State) (v : Word) : State := { s with reads := s.reads ++ [v] }

/-- A read of STATUS (R193): `OCC` is a free value in 0 to 1024 while BUSY is 1; BUSY, ERR and ERRCODE
are exact at all times. -/
def readStatus (s : State) : State :=
  if s.busy then
    { s with draws := s.draws + 1 }.answer
      (statusWord (Config.busyOcc s.draws).val s.errCode s.err s.busy)
  else s.answer (statusWord s.occ s.errCode s.err s.busy)

/-- A read of CRCR (R193): a free 16-bit value while BUSY is 1. -/
def readCrcr (s : State) : State :=
  if s.busy then { s with draws := s.draws + 1 }.answer (crcrWord (Config.busyCrc s.draws))
  else s.answer (crcrWord s.crc)

/-- `RegRead` of a register (R193); CMD and CTRL read 0. -/
def regRead (r : Register) (s : State) : State :=
  match r with
  | .cmd => s.answer 0#32
  | .status => readStatus s
  | .crcr => readCrcr s
  | .ctrl => s.answer 0#32

/-- `OnCmdWrite(w)` once BUSY is 0 (R192): ignored while ERR is 1 (60_exceptions.md R223), rejected when
it does not decode (R222), else accepted and executed. The host's command index moves on (10_state.md
R28; log 14). -/
def onCmdWrite (w : Word) (s : State) : Host.Outcome State Fault Refusal :=
  let s1 := { s with cmdIndex := s.cmdIndex + 1 }
  if s1.err then .next s1
  else
    match decode w with
    | .error e => .next (raiseCmdError e s1)
    | .ok i => exec i s1

/-- A write of CMD (R194): held while BUSY is 1. -/
def writeCmd (w : Word) (s : State) : Host.Outcome State Fault Refusal :=
  if s.busy then .next { s with held := some w } else onCmdWrite w s

/-- A write of CTRL (R194, R195): a soft reset if bit 0 is 1; the other bits are ignored. -/
def writeCtrl (v : Word) (s : State) : State := if v.getLsbD 0 then softReset s else s

/-- `RegWrite` of a register (R194); STATUS and CRCR ignore writes. -/
def regWrite (r : Register) (v : Word) (s : State) : Host.Outcome State Fault Refusal :=
  match r with
  | .cmd => writeCmd v s
  | .status => .next s
  | .crcr => .next s
  | .ctrl => .next (writeCtrl v s)

/-- One host access (R52, R193, R194); an access the window does not define is refused (R224(b)). -/
def access (a : Access) (s : State) : Host.Outcome State Fault Refusal :=
  match a with
  | .read width offset =>
    match registerAt width offset with
    | some r => .next (regRead r s)
    | none => .refused .undefinedAccess
  | .write width offset v =>
    match registerAt width offset with
    | some r => regWrite r v s
    | none => .refused .undefinedAccess

/-- The host's turn: it goes on waiting while its CMD write is held and BUSY is 1, the held write is
treated once BUSY is 0, and otherwise the host makes its next access, if it has one (R192, R194). An
access while RST is asserted is refused (70_reset_and_hazards.md R251). -/
def hostTurn (s : State) : Host.Outcome State Fault Refusal :=
  match s.held with
  | some w =>
    if s.rst then .refused .accessDuringReset
    else if s.busy then .next s
    else onCmdWrite w { s with held := none }
  | none =>
    match s.host with
    | [] => .next s
    | a :: rest =>
      if s.rst then .refused .accessDuringReset else access a { s with host := rest }

/-- RST is asserted as the host makes its next access (60_exceptions.md R225): a command write is lost
undecoded, and any other access is one made while RST is asserted, which is refused (R251; log 13). -/
def assertResetWithWrite (s : State) : Host.Outcome State Fault Refusal :=
  match s.held, s.host with
  | some _, _ => .next (assertReset s)
  | none, [] => .next (assertReset s)
  | none, a :: rest =>
    match a with
    | .write 32 0x00 _ =>
      if s.rst then .refused .accessDuringReset
      else .next (assertReset { s with host := rest, cmdIndex := s.cmdIndex + 1 })
    | _ => .refused .accessDuringReset

/-- The move of one agent. -/
def takeTurn (t : Turn) (s : State) : Host.Outcome State Fault Refusal :=
  match t with
  | .host => hostTurn s
  | .sink => .next (sinkTurn s)
  | .rstAssert => .next (assertReset s)
  | .rstAssertWithWrite => assertResetWithWrite s
  | .rstRelease => .next (releaseReset s)

/-- `w` placed as the host's next access, a write of CMD, and the host to move next; a held write makes
way for it (log 17). -/
def placeCommand (w : Word) (s : State) : State :=
  { s with held := none, host := .write 32 0x00 w :: s.host, turns := .host :: s.turns }

end Sys2Proof.Machine
end

