-- ==== Sys2Proof/Machine/Step.lean ====
section
/-! DEFINITION. One step: the next agent of `turns` moves. With no turn left nobody acts, and every
element keeps its value (00_scope.md R6, 60_exceptions.md R231). -/

namespace Sys2Proof.Machine

def step (s : State) : Host.Outcome State Fault Refusal :=
  match s.turns with
  | [] => .next s
  | t :: rest => takeTurn t { s with turns := rest }

/-- `s` with a table row's command as the command word the host writes next (log 17). The block runs
it at the next step if it is idle, without error and out of reset (43_control.md R192), as it is after
`State.reset`. -/
def State.withFetchWord (s : State) (nbits w : Nat) : State := placeCommand (tableWord nbits w) s

end Sys2Proof.Machine
end

