-- ==== Sys2Proof/Machine/Assembler.lean ====
section
/-! DEFINITION. The assembly language and its two pseudo-instructions (30_encoding.md R88 to R91). The
block never sees it: it turns a program's text into command words. -/

namespace Sys2Proof.Machine

/-- Why the assembler refuses a line (R88, R90). -/
inductive AsmError where
  /-- The line begins with no mnemonic of R88, R90 or R91. -/
  | unknownMnemonic
  /-- The operand is missing, not a number, or followed by more text. -/
  | malformedOperand
  /-- The operand is out of its range (R88). -/
  | operandOutOfRange
  /-- `fr.string` of more than 10 bytes (R90). -/
  | filenameOverflow
  deriving DecidableEq, Repr

/-- One line of assembly, its operand a number or a byte string (R88, R90, R91). -/
inductive AsmLine where
  | nop
  | symBit (b : Nat)
  | symPre (n : Nat)
  | symSync
  | symSil
  | crcReset
  | crcBit (b : Nat)
  | frBit (b : Nat)
  | frByte (v : Nat)
  | frWord (v : Nat)
  | frCrc
  | flush
  /-- `fr.string "s"` (R90). -/
  | frString (s : List (BitVec 8))
  /-- `fr.syncmark` (R91). -/
  | frSyncmark
  deriving DecidableEq, Repr

/-- An operand below `bound`, or a refusal (R88). -/
def inRange (bound v : Nat) (commands : List Instr) : Except AsmError (List Instr) :=
  if v < bound then .ok commands else .error .operandOutOfRange

/-- `fr.string s` (R90): the length byte and the content bytes; more than 10 bytes are refused. -/
def expandString (s : List (BitVec 8)) : Except AsmError (List Instr) :=
  if s.length ≤ Config.fnameMax then
    .ok (.frByte (BitVec.ofNat 8 s.length) :: s.map .frByte)
  else .error .filenameOverflow

/-- `fr.syncmark` (R91, 90_conflicts.md C1): the reset stands between the two bytes. -/
def expandSyncmark : List Instr := [.frByte 0x00#8, .crcReset, .frByte 0x6a#8]

/-- The commands of one line (R88, R90, R91). -/
def assembleLine : AsmLine → Except AsmError (List Instr)
  | .nop => .ok [.nop]
  | .symBit b => inRange 2 b [.symBit (b == 1)]
  | .symPre n => inRange (2 ^ 24) n [.symPreamble n]
  | .symSync => .ok [.symSync]
  | .symSil => .ok [.symSilence]
  | .crcReset => .ok [.crcReset]
  | .crcBit b => inRange 2 b [.crcBit (b == 1)]
  | .frBit b => inRange 2 b [.frBit (b == 1)]
  | .frByte v => inRange (2 ^ 8) v [.frByte (BitVec.ofNat 8 v)]
  | .frWord v => inRange (2 ^ 16) v [.frWord (BitVec.ofNat 16 v)]
  | .frCrc => .ok [.frCrcWord]
  | .flush => .ok [.flush]
  | .frString s => expandString s
  | .frSyncmark => .ok expandSyncmark

/-- The commands of a program, line by line; the first refused line refuses it. -/
def assembleLines : List AsmLine → Except AsmError (List Instr)
  | [] => .ok []
  | line :: rest =>
    match assembleLine line with
    | .error e => .error e
    | .ok is =>
      match assembleLines rest with
      | .error e => .error e
      | .ok more => .ok (is ++ more)

/-- A character that separates a mnemonic from its operand (log 23). -/
def isBlank (c : Char) : Bool := c.toNat == 32 || c.toNat == 9

/-- Leading blanks taken off. -/
def skipBlanks (cs : List Char) : List Char := cs.dropWhile isBlank

/-- Nothing but blanks and an optional comment, from `;` to the end of the line (R88). -/
def isLineEnd (cs : List Char) : Bool :=
  match skipBlanks cs with
  | [] => true
  | c :: _ => c.toNat == 59

/-- The value of a decimal digit. -/
def decDigit (c : Char) : Option Nat :=
  if 48 ≤ c.toNat ∧ c.toNat ≤ 57 then some (c.toNat - 48) else none

/-- The value of a hexadecimal digit, in either case. -/
def hexDigit (c : Char) : Option Nat :=
  if 97 ≤ c.toNat ∧ c.toNat ≤ 102 then some (c.toNat - 87)
  else if 65 ≤ c.toNat ∧ c.toNat ≤ 70 then some (c.toNat - 55)
  else decDigit c

/-- The number a non-empty run of digits stands for. -/
def digitsValue (base : Nat) (digit : Char → Option Nat) : List Char → Nat → Option Nat
  | [], acc => some acc
  | c :: cs, acc =>
    match digit c with
    | none => none
    | some d => digitsValue base digit cs (acc * base + d)

/-- A decimal or `0x`-prefixed hexadecimal number (R88). -/
def numberOf (token : List Char) : Option Nat :=
  match token with
  | [] => none
  | '0' :: 'x' :: [] => none
  | '0' :: 'x' :: digits => digitsValue 16 hexDigit digits 0
  | digits => digitsValue 10 decDigit digits 0

/-- A token: the characters up to a blank or a comment, and the rest of the line. -/
def splitToken (cs : List Char) : List Char × List Char :=
  cs.span fun c => !(isBlank c || c.toNat == 59)

/-- The ASCII byte of a character (R89; log 24). -/
def asciiByte (c : Char) : Option (BitVec 8) :=
  if c.toNat < 128 then some (BitVec.ofNat 8 c.toNat) else none

/-- A line with a numeric operand. -/
def numericLine (build : Nat → AsmLine) (rest : List Char) : Except AsmError AsmLine :=
  let (token, tail) := splitToken (skipBlanks rest)
  match numberOf token, isLineEnd tail with
  | some v, true => .ok (build v)
  | _, _ => .error .malformedOperand

/-- A line without an operand. -/
def plainLine (line : AsmLine) (rest : List Char) : Except AsmError AsmLine :=
  if isLineEnd rest then .ok line else .error .malformedOperand

/-- The operand of `fr.byte`: a number, or a character between two apostrophes (R88, R89). A `;` between
the apostrophes is the character, not the start of a comment: DESIGN CHOICE (log 28). -/
def byteLine (rest : List Char) : Except AsmError AsmLine :=
  match skipBlanks rest with
  | q :: c :: q' :: tail =>
    if q.toNat = 39 ∧ q'.toNat = 39 then
      match asciiByte c, isLineEnd tail with
      | some v, true => .ok (.frByte v.toNat)
      | _, _ => .error .malformedOperand
    else numericLine .frByte rest
  | _ => numericLine .frByte rest

/-- The operand of `fr.string`: the ASCII bytes between two double quotes (R89, R90). A `;` between the
quotes is a byte of the string, not the start of a comment: DESIGN CHOICE (log 28). -/
def stringLine (rest : List Char) : Except AsmError AsmLine :=
  match skipBlanks rest with
  | q :: cs =>
    if q.toNat = 34 then
      let (body, tail) := cs.span fun c => c.toNat != 34
      match tail, body.mapM asciiByte with
      | _ :: after, some bytes =>
        if isLineEnd after then .ok (.frString bytes) else .error .malformedOperand
      | _, _ => .error .malformedOperand
    else .error .malformedOperand
  | [] => .error .malformedOperand

/-- One line of text: a mnemonic, then its operand if it has one, then an optional comment (R88). A
line with no mnemonic stands for no command (log 23). -/
def parseLine (cs : List Char) : Except AsmError (Option AsmLine) :=
  if isLineEnd cs then .ok none
  else
    let (mnemonic, rest) := splitToken (skipBlanks cs)
    let line : Except AsmError AsmLine :=
      match mnemonic with
      | ['n', 'o', 'p'] => plainLine .nop rest
      | ['s', 'y', 'm', '.', 'b', 'i', 't'] => numericLine .symBit rest
      | ['s', 'y', 'm', '.', 'p', 'r', 'e'] => numericLine .symPre rest
      | ['s', 'y', 'm', '.', 's', 'y', 'n', 'c'] => plainLine .symSync rest
      | ['s', 'y', 'm', '.', 's', 'i', 'l'] => plainLine .symSil rest
      | ['c', 'r', 'c', '.', 'r', 'e', 's', 'e', 't'] => plainLine .crcReset rest
      | ['c', 'r', 'c', '.', 'b', 'i', 't'] => numericLine .crcBit rest
      | ['f', 'r', '.', 'b', 'i', 't'] => numericLine .frBit rest
      | ['f', 'r', '.', 'b', 'y', 't', 'e'] => byteLine rest
      | ['f', 'r', '.', 'w', 'o', 'r', 'd'] => numericLine .frWord rest
      | ['f', 'r', '.', 'c', 'r', 'c'] => plainLine .frCrc rest
      | ['f', 'l', 'u', 's', 'h'] => plainLine .flush rest
      | ['f', 'r', '.', 's', 't', 'r', 'i', 'n', 'g'] => stringLine rest
      | ['f', 'r', '.', 's', 'y', 'n', 'c', 'm', 'a', 'r', 'k'] => plainLine .frSyncmark rest
      | _ => .error .unknownMnemonic
    match line with
    | .ok l => .ok (some l)
    | .error e => .error e

/-- The lines of a text: the pieces between newline characters. -/
def textLines : List Char → List (List Char)
  | [] => [[]]
  | c :: cs =>
    match textLines cs with
    | [] => [[c]]
    | first :: rest => if c.toNat = 10 then [] :: first :: rest else (c :: first) :: rest

/-- The parsed lines of a program. -/
def parseLines : List (List Char) → Except AsmError (List AsmLine)
  | [] => .ok []
  | cs :: rest =>
    match parseLine cs, parseLines rest with
    | .error e, _ => .error e
    | .ok _, .error e => .error e
    | .ok none, .ok lines => .ok lines
    | .ok (some l), .ok lines => .ok (l :: lines)

/-- The command words of a program's text (R88 to R91). Of several bad lines, the first that does not
parse is reported, and only where all parse the first that R88 or R90 refuses: DESIGN CHOICE (log 29). -/
def assemble (text : List Char) : Except AsmError (List Word) :=
  match parseLines (textLines text) with
  | .error e => .error e
  | .ok lines =>
    match assembleLines lines with
    | .error e => .error e
    | .ok is => .ok (is.map encode)

/-- The accesses of a host that writes a program's command words in order (43_control.md R192). -/
def hostProgram (words : List Word) : List Access := words.map (.write 32 0x00)

end Sys2Proof.Machine
end

