-- ==== Sys2Proof/Safety.lean ====
section
/-! DEFINITION. The terms in which claims speak of the machine: the faulted and the idle state, the
samples and bits a command stands for, what a command in flight still owes, the invariants of
10_state.md R35 and of the model, and the completion of commands. -/

namespace Sys2Proof.Machine

/-- "A model treats a state with ERR = 1 as faulted" (60_exceptions.md R223). -/
def State.faulted (s : State) : Bool := s.err

/-- Ready for a command: BUSY, ERR and RST are 0 and no write is held (43_control.md R192). -/
def State.ready (s : State) : Bool := !s.busy && !s.err && !s.rst && s.held.isNone

/-- The canonical form of `OB`: exactly 1024 cells (10_state.md R22). -/
def Buffer.wf (ob : List Sample) : Bool := ob.length == Config.bufCap

/-- Every sample the block has produced and not lost, in order: the stream, then the buffered samples
(20_memory.md R58). -/
def State.output (s : State) : List Sample := s.stream ++ s.buffered

/-- The bits a command folds, in emission order, when the CRC holds `crc` at its start
(41_crc.md R143, 42_framer.md R160 to R163). -/
def foldedBits (crc : Crc) : Instr → List Bool
  | .nop | .symBit _ | .symPreamble _ | .symSync | .symSilence | .crcReset | .flush => []
  | .crcBit b => [b]
  | .frBit b => [b]
  | .frByte v => byteBits v
  | .frWord v => wordBits v
  | .frCrcWord => wordBits crc

/-- The sample list of each append a command makes, in order, when the CRC holds `crc` at its start
(20_memory.md R55, 40_synthesizer.md R112 to R115, 42_framer.md R160 to R163). -/
def appendUnits (crc : Crc) : Instr → List (List Sample)
  | .nop | .crcReset | .crcBit _ | .flush => []
  | .symBit b => [bitSymbol b]
  | .symPreamble n => List.replicate n symbolPre
  | .symSync => [symbolSync]
  | .symSilence => List.replicate Config.silenceLen [zeroSample]
  | .frBit b => [bitSymbol b]
  | .frByte v => (byteBits v).map bitSymbol
  | .frWord v => (wordBits v).map bitSymbol
  | .frCrcWord => (wordBits crc).map bitSymbol

/-- Every sample a command appends, in order, when the CRC holds `crc` at its start. -/
def rendering (crc : Crc) (i : Instr) : List Sample := (appendUnits crc i).flatten

/-- The CRC after a command that started with `crc` (10_state.md R21). -/
def crcAfter (crc : Crc) (i : Instr) : Crc :=
  if i = .crcReset then Config.crcResetVal else crcFold crc (foldedBits crc i)

/-- The constants `V_0 .. V_7` of 41_crc.md R146(e): what the carry of each of eight folds is worth in the
end. -/
def carryWorth : List Crc :=
  [0x4000#16, 0x1000#16, 0x0400#16, 0x4100#16, 0x1040#16, 0x0410#16, 0x8104#16, 0x2041#16]

/-- The XOR of the constants whose fold had a carry, the carry of fold `j` in bit `j` (R146(e)). -/
def carrySpan (carries : BitVec 8) : Crc :=
  (List.range 8).foldl
    (fun r j => r ^^^ if carries.getLsbD j = true then carryWorth.getD j 0 else 0x0000#16) 0x0000#16

/-- The samples the command in flight has still to append (R26, R58). -/
def State.owed (s : State) : List Sample :=
  match s.cur with
  | none => []
  | some c => ((appendUnits c.snapshot c.cmd).drop c.done).flatten

/-- The bits the command in flight has still to fold (R26). -/
def State.owedBits (s : State) : List Bool :=
  match s.cur with
  | none => []
  | some c => (foldedBits c.snapshot c.cmd).drop c.done

/-- How many times a command may wait in `Deliver`: once for each of its appends, and once for a flush
(20_memory.md R55, R56). -/
def waitPoints : Instr → Nat
  | .nop | .crcReset | .crcBit _ => 0
  | .symBit _ | .symSync | .frBit _ | .flush => 1
  | .symPreamble n => n
  | .symSilence => Config.silenceLen
  | .frByte _ => 8
  | .frWord _ | .frCrcWord => 16

/-- A command that waits: one that has an encoding, at one of its wait points, with a snapshot only for
FR_CRCWORD (R26, R163). -/
def InFlight.wf (c : InFlight) : Bool :=
  c.cmd.wellFormed && decide (c.done < waitPoints c.cmd) && (c.cmd == .frCrcWord || c.snapshot == 0)

/-- The values of 10_state.md R34; it says nothing of `OB`'s cells. -/
structure State.ResetValues (s : State) : Prop where
  crc : s.crc = 0x0000#16
  occ : s.occ = 0
  busy : s.busy = false
  err : s.err = false
  errCode : s.errCode = 0
  cur : s.cur = none
  pend : s.pend = none

/-- The move a step from `s` is about to make is a reset: RST asserted, alone or together with an access,
RST released where it was asserted, or the host's write of CTRL with bit 0 set (70_reset_and_hazards.md
R250 to R252). No other move resets the block. -/
inductive State.ResetMove (s : State) : Prop where
  | rstAsserted (rest : List Turn) (turn : s.turns = .rstAssert :: rest)
  | rstAssertedWithWrite (rest : List Turn) (turn : s.turns = .rstAssertWithWrite :: rest)
  | rstReleased (rest : List Turn) (turn : s.turns = .rstRelease :: rest) (asserted : s.rst = true)
  | ctrlWritten (rest : List Turn) (v : Word) (as : List Access) (turn : s.turns = .host :: rest)
      (free : s.held = none) (next : s.host = .write 32 0x0C v :: as) (srst : v.getLsbD 0 = true)

/-- What 10_state.md R35 says of every reachable state, clause by clause. -/
structure State.RegisterInvariant (s : State) : Prop where
  occ_le_cap : s.occ ≤ 1024
  no_err_no_code : s.err = false → s.errCode = 0
  err_code_legal : s.err = true → s.errCode = 1 ∨ s.errCode = 2
  busy_no_err : s.busy = true → s.err = false
  idle_nothing_in_flight : s.busy = false → s.cur = none ∧ s.pend = none
  pend_size : ∀ c, s.pend = some c → 1 ≤ c.length ∧ c.length ≤ 1024

/-- The model's inductive invariant: R35, the canonical form of `OB`, and what a waiting block, a
command in flight and an asserted RST look like (R22, R26, R57, 70_reset_and_hazards.md R251; a busy
block waits for the sink: log 3). -/
structure State.Inv (s : State) : Prop extends State.RegisterInvariant s where
  ob_wf : s.ob.length = 1024
  busy_in_flight : s.busy = true → ∃ c, s.cur = some c ∧ c.wf = true
  busy_offers : s.busy = true → s.pend = some s.buffered
  in_reset : s.rst = true →
    s.crc = 0 ∧ s.occ = 0 ∧ s.busy = false ∧ s.err = false ∧ s.held = none

/-- The sink takes `k` turns in a row, as far as the block waits for it. -/
def drain : Nat → State → State
  | 0, s => s
  | k + 1, s => if s.busy then drain k (sinkTurn s) else s

/-- The command `i`, accepted in `s`, completes in `t` once the sink has accepted what it is offered
(R24, R192). -/
def Completes (i : Instr) (s t : State) : Prop :=
  ∃ u k, exec i s = .next u ∧ drain k u = t ∧ t.busy = false

/-- The commands of a list complete one after the other (43_control.md R192, 20_memory.md R60). -/
def CompletesAll : List Instr → State → State → Prop
  | [], s, t => s = t
  | i :: is, s, t => ∃ u, Completes i s u ∧ CompletesAll is u t

/-- The samples a list of commands appends, in order, from a CRC value (20_memory.md R58, R60). -/
def renderingAll : Crc → List Instr → List Sample
  | _, [] => []
  | crc, i :: is => rendering crc i ++ renderingAll (crcAfter crc i) is

/-- The bits a list of commands folds, in order, from a CRC value (42_framer.md R166). -/
def foldedBitsAll : Crc → List Instr → List Bool
  | _, [] => []
  | crc, i :: is => foldedBits crc i ++ foldedBitsAll (crcAfter crc i) is

/-- What a framer command does that emits `bits`, from a state whose buffer is well-formed: with room for
all their symbols, it appends them and folds the bits; else the buffer fills up to the first bit `k` that
does not fit, a ready sink takes that chunk and the rest follows at `OB[0]`, and with a sink that is not
ready the block waits there, `k` bits folded, the chunk on offer (R26, R55, R57, R160 to R163). -/
def EmitsBits (i : Instr) (snapshot : Crc) (bits : List Bool) (s : State) : Prop :=
  (s.occ + (shape bits).length ≤ 1024 →
    exec i s = .next { s with
      ob := writeCells s.ob s.occ (shape bits)
      occ := s.occ + (shape bits).length
      crc := crcFold s.crc bits
      cur := none
      busy := false }) ∧
  (1024 < s.occ + (shape bits).length →
    ∃ k, k < bits.length ∧ s.occ + (shape (bits.take k)).length ≤ 1024 ∧
      1024 < s.occ + (shape (bits.take (k + 1))).length ∧
      (∀ r, s.sinkReady = r + 1 →
        exec i s = .next { s with
          ob := writeCells (writeCells s.ob s.occ (shape (bits.take k))) 0 (shape (bits.drop k))
          occ := (shape (bits.drop k)).length
          crc := crcFold s.crc bits
          delivered := s.delivered ++ [s.buffered ++ shape (bits.take k)]
          sinkReady := r
          pend := none
          cur := none
          busy := false }) ∧
      (s.sinkReady = 0 →
        exec i s = .next { s with
          ob := writeCells s.ob s.occ (shape (bits.take k))
          occ := s.occ + (shape (bits.take k)).length
          crc := crcFold s.crc (bits.take k)
          pend := some (s.buffered ++ shape (bits.take k))
          busy := true
          cur := some ⟨i, k, snapshot⟩ }))

/-- Of the words with opcode `op`, every one that `legal` does not admit is rejected with RESERVED_FIELD
(the "Errors" line of each command's rule, 30_encoding.md R85). -/
def RejectsOtherWords (op : Nat) (legal : Word → Prop) : Prop :=
  ∀ w : Word, w.toNat / 2 ^ 28 = op → ¬ legal w → decode w = .error .reservedField

/-- A framer command (42_framer.md R160 to R163). -/
def isFramer : Instr → Bool
  | .frBit _ | .frByte _ | .frWord _ | .frCrcWord => true
  | .nop | .symBit _ | .symPreamble _ | .symSync | .symSilence | .crcReset | .crcBit _ | .flush => false

/-- A synthesizer command (40_synthesizer.md R112 to R115). -/
def isSynthesizer : Instr → Bool
  | .symBit _ | .symPreamble _ | .symSync | .symSilence => true
  | .nop | .crcReset | .crcBit _ | .frBit _ | .frByte _ | .frWord _ | .frCrcWord | .flush => false

end Sys2Proof.Machine
end

