-- ==== Sys2Proof/Certificates/Slice0/Obligations.lean ====
section
/-! DEFINITION. The statements about the model, for the provers. Each docstring names the rule of spec/
it formalises; "the model's choice" marks a clause that rests on a log entry instead. A statement that
gives a whole next state leaves every cell of OB alone that no append writes, because Append is the only
writer of OB (10_state.md R22); that the spec would allow any value at or above OCC (I2) is log 27. -/

open Sys2Proof Sys2Proof.Machine

/-! ### Encoding -/

/-- A few words of 95_test_vectors.md section 2.1 decode as the vectors say. -/
def Obligations.SampleWordsDecode : Prop :=
  decode 0x00000000#32 = .ok .nop ∧ decode 0x00000001#32 = .error .reservedField ∧
  decode 0x10000001#32 = .ok (.symBit true) ∧ decode 0x20002800#32 = .ok (.symPreamble 10240) ∧
  decode 0x60000001#32 = .ok (.crcBit true) ∧ decode 0x8000006A#32 = .ok (.frByte 0x6A#8) ∧
  decode 0x9000FFFF#32 = .ok (.frWord 0xFFFF#16) ∧ decode 0xB0000000#32 = .ok .flush ∧
  decode 0xCFFFFFFF#32 = .error .illegalOpcode

/-- Decode and encode agree: no bit of an operand is lost, for every well-formed command (30_encoding.md
R81 to R83, R86). -/
def Obligations.DecodeOfEncodeIsTheCommand : Prop :=
  ∀ i : Instr, i.wellFormed = true → decode (encode i) = .ok i

/-- The decoder accepts a word only if it is the encoding of the well-formed command it reads
(30_encoding.md R85, R86). -/
def Obligations.AcceptedWordIsItsCommandsEncoding : Prop :=
  ∀ (w : Word) (i : Instr), decode w = .ok i → i.wellFormed = true ∧ encode i = w

/-- R84: an opcode 0xC to 0xF is rejected with code 1, whatever bits 27:0 hold, and nothing else happens
in the block; that the host's command index moves on is the model's choice (log 14). -/
def Obligations.ReservedOpcodeIsRejected : Prop :=
  ∀ (w : Word) (s : State), 0xC ≤ w.toNat / 2 ^ 28 →
    decode w = .error .illegalOpcode ∧
    (s.err = false → onCmdWrite w s =
      .next { s with cmdIndex := s.cmdIndex + 1, err := true, errCode := 1 })

/-- R85: a defined opcode with a reserved bit set is rejected with code 2 and nothing else happens in
the block; that the host's command index moves on is the model's choice (log 14). Each command accepts
exactly the words the rule counts. -/
def Obligations.ReservedFieldIsRejected : Prop :=
  (∀ (w : Word) (fmt : Format) (s : State), opcodeFormat (w.toNat / 2 ^ 28) = some fmt →
    w &&& reservedMask fmt ≠ 0#32 →
    decode w = .error .reservedField ∧
    (s.err = false → onCmdWrite w s =
      .next { s with cmdIndex := s.cmdIndex + 1, err := true, errCode := 2 })) ∧
  (∀ w : Word,
    ((∃ b, decode w = .ok (.symBit b)) ↔ w = 0x10000000#32 ∨ w = 0x10000001#32) ∧
    ((∃ b, decode w = .ok (.crcBit b)) ↔ w = 0x60000000#32 ∨ w = 0x60000001#32) ∧
    ((∃ b, decode w = .ok (.frBit b)) ↔ w = 0x70000000#32 ∨ w = 0x70000001#32) ∧
    ((∃ v, decode w = .ok (.frByte v)) ↔ 0x80000000 ≤ w.toNat ∧ w.toNat < 0x80000000 + 256) ∧
    ((∃ v, decode w = .ok (.frWord v)) ↔ 0x90000000 ≤ w.toNat ∧ w.toNat < 0x90000000 + 65536) ∧
    ((∃ n, decode w = .ok (.symPreamble n)) ↔
      0x20000000 ≤ w.toNat ∧ w.toNat < 0x20000000 + 2 ^ 24) ∧
    (decode w = .ok .nop ↔ w = 0x00000000#32) ∧
    (decode w = .ok .symSync ↔ w = 0x30000000#32) ∧
    (decode w = .ok .symSilence ↔ w = 0x40000000#32) ∧
    (decode w = .ok .crcReset ↔ w = 0x50000000#32) ∧
    (decode w = .ok .frCrcWord ↔ w = 0xA0000000#32) ∧
    (decode w = .ok .flush ↔ w = 0xB0000000#32))

/-! ### Reset -/

/-- R34: the values after power-on, after a hardware reset and after a soft reset. -/
def Obligations.ResetLeavesResetValues : Prop :=
  State.reset.ResetValues ∧ (∀ s : State, (releaseReset (assertReset s)).ResetValues) ∧
    ∀ s : State, (softReset s).ResetValues

/-- R251: RST asserted in any state abandons the command in flight, keeps the accepted stream, and
leaves nothing else to deliver; while it is asserted the host's accesses are refused; its release leaves
the values of R34. What becomes of a held write is the model's choice (log 12), and so
are the values while RST is asserted (log 11). -/
def Obligations.HardwareResetAbandonsAndRestores : Prop :=
  (∀ (s : State) (rest : List Turn), s.turns = .rstAssert :: rest →
    ∃ t, step s = .next t ∧ t.rst = true ∧ t.ResetValues ∧ t.delivered = s.delivered ∧
      t.output = s.stream) ∧
  (∀ (s : State) (rest : List Turn) (a : Access) (as : List Access), s.turns = .host :: rest →
    s.rst = true → s.held = none → s.host = a :: as → step s = .refused .accessDuringReset) ∧
  (∀ (s : State) (rest : List Turn), s.turns = .rstRelease :: rest → s.rst = true →
    ∃ t, step s = .next t ∧ t.rst = false ∧ t.ResetValues ∧ t.delivered = s.delivered ∧
      t.output = s.stream)

/-- R252: a write of CTRL with bit 0 set, in any state, busy or not, leaves the values of R34 at once,
discards what is buffered or on offer, and keeps the accepted stream; the environment is untouched. -/
def Obligations.SoftResetAbandonsAndRestores : Prop :=
  ∀ (s : State) (v : Word), v.getLsbD 0 = true →
    ∃ t, access (.write 32 0x0C v) s = .next t ∧ t.ResetValues ∧ t.output = s.stream ∧
      t = { s with crc := t.crc, ob := t.ob, occ := t.occ, busy := t.busy, err := t.err,
                   errCode := t.errCode, cur := t.cur, pend := t.pend, draws := t.draws }

/-- R195: CTRL.SRST acts on a write of 1, even while BUSY, does nothing on a write of 0, and CTRL reads
0; from an idle state without error the reset changes only CRC and OCC (and OB's cells, with the draw
they come from: log 9). -/
def Obligations.CtrlWriteOneResetsWriteZeroDoesNothing : Prop :=
  (∀ (s : State) (v : Word), v.getLsbD 0 = false → access (.write 32 0x0C v) s = .next s) ∧
  (∀ (s : State) (v : Word), v.getLsbD 0 = true →
    ∃ t, access (.write 32 0x0C v) s = .next t ∧ t.ResetValues) ∧
  (∀ s : State, access (.read 32 0x0C) s = .next { s with reads := s.reads ++ [0#32] }) ∧
  (∀ (s : State) (v : Word), v.getLsbD 0 = true → s.Inv → s.busy = false → s.err = false →
    ∃ t, access (.write 32 0x0C v) s = .next t ∧
      t = { s with crc := 0, occ := 0, ob := t.ob, draws := t.draws } ∧ t.buffered = [] ∧
      t.delivered = s.delivered)

/-- R225: where RST is asserted together with a command write, reset wins: the values of R34, and the
word is not decoded. That the host's command index moves past the lost word is the model's choice
(log 13). -/
def Obligations.ResetWinsOverACommandWrite : Prop :=
  ∀ (s : State) (rest : List Turn) (w : Word) (as : List Access),
    s.turns = .rstAssertWithWrite :: rest → s.rst = false → s.held = none →
    s.host = .write 32 0x00 w :: as →
    ∃ t, step s = .next t ∧ t.ResetValues ∧ t.rst = true ∧ t.host = as ∧
      t.delivered = s.delivered ∧ t.cmdIndex = s.cmdIndex + 1

/-! ### Invariants -/

/-- The state after power-on meets the model's invariant, two clauses of which are the model's choice
(logs 3 and 11). -/
def Obligations.ResetMeetsTheInvariant : Prop := State.reset.Inv

/-- Every step keeps the model's invariant: R35, the buffer's canonical form, what a command in flight
and an asserted RST look like (10_state.md R22, R26, R35; that a busy block waits for the sink, and what
holds while RST is asserted, are the model's choice: logs 3 and 11). -/
def Obligations.EveryStepKeepsTheInvariant : Prop :=
  ∀ s t : State, s.Inv → step s = .next t → t.Inv

/-- R35: its clauses hold in every state reached from power-on, whatever the host writes and in whatever
order the agents move. -/
def Obligations.StatusInvariantInEveryReachableState : Prop :=
  ∀ (k : Nat) (program : List Access) (schedule : List Turn) (t : State),
    Host.Core.run Sys2Proof.core k { State.reset with host := program, turns := schedule } = .next t →
    t.RegisterInvariant

/-! ### The host's accesses -/

/-- R192: in a state that is idle, without error and out of reset, the host's turn with a CMD write
whose word decodes runs that command, with the turn and the access taken and the command index moved on;
a write that was held runs the same way. -/
def Obligations.DecodedCommandRunsAtItsStep : Prop :=
  ∀ (s : State) (rest : List Turn) (w : Word) (as : List Access) (i : Instr),
    s.turns = .host :: rest → s.rst = false → s.busy = false → s.err = false → decode w = .ok i →
    (s.held = none → s.host = .write 32 0x00 w :: as →
      step s = exec i { s with turns := rest, host := as, cmdIndex := s.cmdIndex + 1 }) ∧
    (s.held = some w →
      step s = exec i { s with turns := rest, held := none, cmdIndex := s.cmdIndex + 1 })

/-- A word placed by withFetchWord runs at the next step, in an idle state without error and out of
reset (the model's placing: log 17). -/
def Obligations.PlacedCommandRunsAtTheNextStep : Prop :=
  ∀ (s : State) (nbits w : Nat) (i : Instr), s.rst = false → s.busy = false → s.err = false →
    decodeTableWord nbits w = some i →
    step (s.withFetchWord nbits w) = exec i { s with held := none, cmdIndex := s.cmdIndex + 1 }

/-- R192: what becomes of a command word: held while BUSY, ignored while ERR, rejected where it does not
decode, else executed; and an executed command either has completed, BUSY and CUR cleared, or is in
flight with a chunk on offer. That a rejected word moves the host's command index is the model's choice
(log 14), and so is that a command in flight always has a chunk on offer (R7; log 3). -/
def Obligations.CommandWordLifecycle : Prop :=
  (∀ (w : Word) (s : State), s.busy = true →
    access (.write 32 0x00 w) s = .next { s with held := some w }) ∧
  (∀ (w : Word) (s : State), s.busy = false → s.err = true →
    access (.write 32 0x00 w) s = .next { s with cmdIndex := s.cmdIndex + 1 }) ∧
  (∀ (w : Word) (s : State) (e : CmdError), s.busy = false → s.err = false → decode w = .error e →
    access (.write 32 0x00 w) s = .next { s with
      cmdIndex := s.cmdIndex + 1, err := true, errCode := if e = .illegalOpcode then 1 else 2 }) ∧
  (∀ (w : Word) (s : State) (i : Instr), s.busy = false → s.err = false → decode w = .ok i →
    access (.write 32 0x00 w) s = exec i { s with cmdIndex := s.cmdIndex + 1 }) ∧
  (∀ (i : Instr) (s : State), s.Inv → s.busy = false → ∃ t, exec i s = .next t ∧
    ((t.busy = false ∧ t.cur = none) ∨
      (t.busy = true ∧ (∃ c, t.cur = some c ∧ c.cmd = i) ∧ ∃ chunk, t.pend = some chunk)))

/-- R192: only the sink's acceptance, which completes it with all its samples produced, or a resetting
move ends a command in flight. That the reset values stand already while RST is asserted, and not only at
its release, is the model's choice (log 11). -/
def Obligations.OnlyResetStopsACommandEarly : Prop :=
  ∀ (s t : State) (turn : Turn) (rest : List Turn), s.Inv → s.busy = true → s.turns = turn :: rest →
    step s = .next t → t.busy = false →
    (turn = .sink ∧ t.output = s.output ++ s.owed ∧ t.crc = crcFold s.crc s.owedBits) ∨
      (s.ResetMove ∧ t.ResetValues)

/-- R194: a write of STATUS or CRCR is ignored, of CTRL resets if bit 0 is 1 and is never held, of CMD is
held while BUSY is 1; and while a write is held and BUSY is 1 the host's turns do nothing, so it makes no
other access. -/
def Obligations.RegisterWriteEffects : Prop :=
  (∀ (s : State) (v : Word), access (.write 32 0x04 v) s = .next s) ∧
  (∀ (s : State) (v : Word), access (.write 32 0x08 v) s = .next s) ∧
  (∀ (s : State) (v : Word), access (.write 32 0x0C v) s =
    .next (if v.getLsbD 0 = true then softReset s else s)) ∧
  (∀ (s : State) (v : Word), access (.write 32 0x00 v) s =
    if s.busy = true then .next { s with held := some v } else onCmdWrite v s) ∧
  (∀ (s : State) (w : Word) (rest : List Turn), s.turns = .host :: rest → s.rst = false →
    s.busy = true → s.held = some w → step s = .next { s with turns := rest })

/-- R259: while a CMD write is held and the sink takes nothing, no number of host turns changes anything;
RST frees the host. -/
def Obligations.HeldWriteBlocksTheHost : Prop :=
  (∀ (k : Nat) (s : State) (w : Word) (rest : List Turn),
    s.turns = List.replicate k .host ++ rest → s.rst = false → s.busy = true → s.held = some w →
    Host.Core.run Sys2Proof.core k s = .next { s with turns := rest }) ∧
  (∀ (s : State) (w : Word) (rest : List Turn), s.turns = .rstAssert :: rest → s.held = some w →
    ∃ t, step s = .next t ∧ t.held = none ∧ t.host = s.host)

/-- R193: what each register reads: CMD and CTRL 0; STATUS and CRCR exact while BUSY is 0; while BUSY is
1, STATUS is exact in BUSY, ERR, ERRCODE and the reserved bits, with an OCC field of 0 to 1024, and CRCR
is a 16-bit value; no read changes anything but the host's answers and the draws. -/
def Obligations.RegisterReadValues : Prop :=
  (∀ s : State, access (.read 32 0x00) s = .next { s with reads := s.reads ++ [0#32] }) ∧
  (∀ s : State, access (.read 32 0x0C) s = .next { s with reads := s.reads ++ [0#32] }) ∧
  (∀ s : State, s.busy = false → s.occ ≤ 1024 → ∃ v : Word,
    access (.read 32 0x04) s = .next { s with reads := s.reads ++ [v] } ∧
    v.toNat = s.occ * 2 ^ 16 + s.errCode.toNat * 2 ^ 4 + s.err.toNat * 2) ∧
  (∀ s : State, s.busy = false → ∃ v : Word,
    access (.read 32 0x08) s = .next { s with reads := s.reads ++ [v] } ∧ v.toNat = s.crc.toNat) ∧
  (∀ s : State, s.busy = true → ∃ (v : Word) (occ : Nat), occ ≤ 1024 ∧
    access (.read 32 0x04) s = .next { s with reads := s.reads ++ [v], draws := s.draws + 1 } ∧
    v.toNat = occ * 2 ^ 16 + s.errCode.toNat * 2 ^ 4 + s.err.toNat * 2 + 1) ∧
  (∀ s : State, s.busy = true → ∃ v : Word, v.toNat < 2 ^ 16 ∧
    access (.read 32 0x08) s = .next { s with reads := s.reads ++ [v], draws := s.draws + 1 })

/-- R52: an access has a meaning exactly if it is 32 bits wide at a multiple of 4 below 0x10; any other
is refused. -/
def Obligations.OnlyAlignedWordAccessesAreDefined : Prop :=
  ∀ (width offset : Nat) (v : Word) (s : State),
    (width = 32 ∧ offset % 4 = 0 ∧ offset < 0x10 →
      (∃ t, access (.read width offset) s = .next t) ∧
      ∃ t, access (.write width offset v) s = .next t) ∧
    (¬(width = 32 ∧ offset % 4 = 0 ∧ offset < 0x10) →
      access (.read width offset) s = .refused .undefinedAccess ∧
      access (.write width offset v) s = .refused .undefinedAccess)

/-! ### Errors -/

/-- R222: a rejected word sets ERR and ERRCODE and changes nothing else of the block; that the
host's command index moves on is the model's choice (log 14). Every earlier command has completed. -/
def Obligations.CommandErrorsArePrecise : Prop :=
  ∀ (w : Word) (e : CmdError) (s : State), s.Inv → s.busy = false → s.err = false →
    decode w = .error e →
    s.cur = none ∧ s.pend = none ∧
    ∃ t, onCmdWrite w s = .next t ∧ t.err = true ∧
      t = { s with cmdIndex := s.cmdIndex + 1, err := true, errCode := t.errCode } ∧
      (e = .illegalOpcode → t.errCode = 1) ∧ (e = .reservedField → t.errCode = 2)

/-- R223: while ERR is 1 a CMD write is accepted and ignored, reads and CTRL writes work as usual, and a
resetting move leaves the values of R34; every other step keeps ERR and the code of the first error.
That an ignored word moves the host's command index is R28's (log 14). That the reset values stand
already while RST is asserted, and not only at its release, is the model's choice (log 11). -/
def Obligations.ErrorStopsTheBlockUntilReset : Prop :=
  (∀ (w : Word) (s : State), s.Inv → s.err = true →
    access (.write 32 0x00 w) s = .next { s with cmdIndex := s.cmdIndex + 1 }) ∧
  (∀ s : State, s.Inv → s.err = true →
    access (.read 32 0x04) s =
      .next { s with reads := s.reads ++ [statusWord s.occ s.errCode true false] } ∧
    access (.read 32 0x08) s = .next { s with reads := s.reads ++ [crcrWord s.crc] } ∧
    access (.write 32 0x0C 0x00000001#32) s = .next (softReset s) ∧ (softReset s).err = false) ∧
  (∀ s t : State, s.Inv → s.err = true → step s = .next t →
    (s.ResetMove ∧ t.ResetValues) ∨ (t.err = true ∧ t.errCode = s.errCode ∧ t.crc = s.crc ∧ t.ob = s.ob ∧
      t.occ = s.occ ∧ t.busy = false ∧ t.delivered = s.delivered))

/-- R220: execution of a decoded command never fails, and ERR is set only by a command word that does not
decode. -/
def Obligations.ExecutionNeverFails : Prop :=
  (∀ (i : Instr) (s : State), ∃ t, exec i s = .next t ∧ t.err = s.err ∧ t.errCode = s.errCode) ∧
  (∀ s t : State, s.err = false → step s = .next t → t.err = true →
    ∃ w e, decode w = .error e ∧ t.errCode = (if e = .illegalOpcode then 1 else 2) ∧
      (s.held = some w ∨ ∃ as, s.host = .write 32 0x00 w :: as))

/-! ### The CRC accumulator -/

/-- R140: the update, step by step, in exact arithmetic. -/
def Obligations.CrcStepFollowsTheSource : Prop :=
  ∀ (s : Crc) (b : Bool),
    let c := s.getLsbD 15 != b
    let t := if c then s ^^^ 0x0810#16 else s
    (crcStep s b).toNat = (t.toNat * 2 ^ 2 % 2 ^ 16 + c.toNat) % 2 ^ 16

/-- R141: the update bit by bit, and as one XOR. -/
def Obligations.CrcStepBitTable : Prop :=
  ∀ (s : Crc) (b : Bool),
    let c := s.getLsbD 15 ^^ b
    let r := crcStep s b
    r.getLsbD 0 = c ∧ r.getLsbD 1 = false ∧
    (∀ k, 2 ≤ k → k ≤ 5 → r.getLsbD k = s.getLsbD (k - 2)) ∧
    r.getLsbD 6 = (s.getLsbD 4 ^^ c) ∧
    (∀ k, 7 ≤ k → k ≤ 12 → r.getLsbD k = s.getLsbD (k - 2)) ∧
    r.getLsbD 13 = (s.getLsbD 11 ^^ c) ∧
    r.getLsbD 14 = s.getLsbD 12 ∧ r.getLsbD 15 = s.getLsbD 13 ∧
    r = (s <<< 2) ^^^ (if c = true then 0x2041#16 else 0x0000#16)

/-- R145: the update is linear, for either shift. -/
def Obligations.CrcStepIsLinear : Prop :=
  (∀ (shift : Nat) (s₁ s₂ : Crc) (b₁ b₂ : Bool), shift = 1 ∨ shift = 2 →
    crcStepWith shift (s₁ ^^^ s₂) (b₁ ^^ b₂) = crcStepWith shift s₁ b₁ ^^^ crcStepWith shift s₂ b₂) ∧
  crcStep 0x0000#16 false = 0x0000#16 ∧ ∀ (s : Crc) (b : Bool), crcStep s b = crcStepWith 2 s b

/-- R147: with shift 1 the update is the CRC of polynomial 0x1021, most significant bit first. -/
def Obligations.CrcStepWithShiftOne : Prop :=
  ∀ (s : Crc) (b : Bool), crcStepWith 1 s b =
    (s <<< 1) ^^^ (if (s.getLsbD 15 ^^ b) = true then 0x1021#16 else 0x0000#16)

/-- R146 (a) to (d): bit 1 of a folded register is 0, bit 14 never matters, flipping bit 15 and the input
together changes nothing; and, as bit 14 is lost, exactly 16384 of the 65536 start values reach 0 within
14 folds of bit 0, the others never, and 0x5040 does after 5. -/
def Obligations.CrcStepIgnoresBitFourteen : Prop :=
  (∀ (s : Crc) (b : Bool), (crcStep s b).getLsbD 1 = false ∧
    crcStep (s ^^^ 0x4000#16) b = crcStep s b ∧ crcStep (s ^^^ 0x8000#16) (!b) = crcStep s b) ∧
  ((List.range (2 ^ 16)).countP fun n =>
    crcFold (BitVec.ofNat 16 n) (List.replicate 14 false) == 0x0000#16) = 16384 ∧
  (∀ (s : Crc) (k : Nat), crcFold s (List.replicate k false) = 0x0000#16 →
    crcFold s (List.replicate 14 false) = 0x0000#16) ∧
  crcFold 0x5040#16 (List.replicate 5 false) = 0x0000#16

/-- R146 (e): after eight folds the register is the XOR of the eight constants whose fold had a carry; so
any whole number of bytes leaves one of the values of their span, a byte can leave each of them whatever
the register was before, and the 256 carry patterns give 256 values. -/
def Obligations.EightFoldsLeaveOnlyTheCarries : Prop :=
  (∀ (s : Crc) (b0 b1 b2 b3 b4 b5 b6 b7 : Bool),
    let at_ := fun bits => crcFold s bits
    let part := fun (bits : List Bool) (b : Bool) (v : Crc) =>
      if ((at_ bits).getLsbD 15 ^^ b) = true then v else 0x0000#16
    at_ [b0, b1, b2, b3, b4, b5, b6, b7] =
      part [] b0 0x4000#16 ^^^ part [b0] b1 0x1000#16 ^^^ part [b0, b1] b2 0x0400#16 ^^^
      part [b0, b1, b2] b3 0x4100#16 ^^^ part [b0, b1, b2, b3] b4 0x1040#16 ^^^
      part [b0, b1, b2, b3, b4] b5 0x0410#16 ^^^ part [b0, b1, b2, b3, b4, b5] b6 0x8104#16 ^^^
      part [b0, b1, b2, b3, b4, b5, b6] b7 0x2041#16) ∧
  (∀ (s : Crc) (bits : List Bool), bits ≠ [] → bits.length % 8 = 0 →
    ∃ c : BitVec 8, crcFold s bits = carrySpan c) ∧
  (∀ (s : Crc) (c : BitVec 8), ∃ v : BitVec 8, crcFold s (byteBits v) = carrySpan c) ∧
  (∀ c d : BitVec 8, carrySpan c = carrySpan d → c = d)

/-- R146 (f), (g): a whole byte leaves 0 in every odd bit but 15 and 13; from such a register a byte 0x00
leaves one of four values (from others it may not: log 10), which are four and each of which it leaves as
it is, so the word after a file-end byte 0x00 is one of them whatever the bytes before; a byte's result
depends on the register before it only through the odd bits, after a whole byte only through bits 15 and
13, so a reset where those are 0 is invisible in every later value. -/
def Obligations.ByteFoldForgetsEvenBits : Prop :=
  let four : List Crc := [0x0000#16, 0xD544#16, 0x7551#16, 0xA015#16]
  (∀ (s : Crc) (v : BitVec 8), crcFold s (byteBits v) &&& 0x0AAA#16 = 0x0000#16) ∧
  (∀ s : Crc, s &&& 0x0AAA#16 = 0x0000#16 → crcFold s (byteBits 0x00#8) ∈ four) ∧
  (four.Nodup ∧ ∀ r ∈ four, r &&& 0x0AAA#16 = 0x0000#16 ∧ crcFold r (byteBits 0x00#8) = r) ∧
  (∀ bytes : List (BitVec 8),
    crcFold 0x0000#16 (bytes.flatMap byteBits ++ byteBits 0x00#8) ∈ four) ∧
  (∀ (s t : Crc) (v : BitVec 8), s &&& 0xAAAA#16 = t &&& 0xAAAA#16 →
    crcFold s (byteBits v) = crcFold t (byteBits v)) ∧
  (∀ (s t : Crc) (u v : BitVec 8) (later : List Bool),
    crcFold s (byteBits u) &&& 0xA000#16 = t &&& 0xA000#16 → t &&& 0x0AAA#16 = 0x0000#16 →
    crcFold (crcFold s (byteBits u)) (byteBits v ++ later) = crcFold t (byteBits v ++ later))

/-- R144: folding bit by bit, by CRC_BIT commands, is the pure fold of the start value and the list, and
from a fresh CRC_RESET the result does not depend on the state. -/
def Obligations.CrcFoldIsDeterministic : Prop :=
  (∀ s : Crc, crcFold s [] = s) ∧
  (∀ (s : Crc) (b : Bool) (bits : List Bool), crcFold s (b :: bits) = crcFold (crcStep s b) bits) ∧
  (∀ (bits : List Bool) (s : State), ∃ t, CompletesAll (bits.map .crcBit) s t) ∧
  (∀ (bits : List Bool) (s t : State), CompletesAll (bits.map .crcBit) s t →
    t.crc = crcFold s.crc bits ∧ t.output = s.output) ∧
  (∀ (bits : List Bool) (s t : State), CompletesAll (.crcReset :: bits.map .crcBit) s t →
    t.crc = crcFold 0x0000#16 bits)

/-- R142: CRC_RESET completes in every state with the register 0 and nothing else changed. -/
def Obligations.CrcResetClearsTheRegister : Prop :=
  decode 0x50000000#32 = .ok .crcReset ∧ RejectsOtherWords 0x5 (· = 0x50000000#32) ∧
  ∀ s : State, exec .crcReset s = .next { s with crc := 0x0000#16, cur := none, busy := false }

/-- R143: CRC_BIT completes in every state with the bit folded and nothing else changed. -/
def Obligations.CrcBitFoldsOneBit : Prop :=
  decode 0x60000000#32 = .ok (.crcBit false) ∧ decode 0x60000001#32 = .ok (.crcBit true) ∧
  RejectsOtherWords 0x6 (fun w => w = 0x60000000#32 ∨ w = 0x60000001#32) ∧
  (∀ (b : Bool) (s : State),
    exec (.crcBit b) s = .next { s with crc := crcStep s.crc b, cur := none, busy := false }) ∧
  crcStep 0x0000#16 false = 0x0000#16 ∧ crcStep 0x0000#16 true = 0x2041#16 ∧
  crcStep 0x1234#16 true = 0x6891#16

/-- R21: the commands that write no CRC keep it, the others leave it as their rules say, and no register
write but a command's or a reset's changes it. That the CRC is 0 already while RST is
asserted, and not only at its release, is the model's choice (log 11). -/
def Obligations.CrcChangesOnlyByItsCommands : Prop :=
  (∀ (i : Instr) (s t : State), isSynthesizer i = true ∨ i = .nop ∨ i = .flush →
    exec i s = .next t → t.crc = s.crc) ∧
  (∀ (i : Instr) (s t : State), s.Inv → s.busy = false → s.rst = false → Completes i s t →
    t.crc = if i = .crcReset then 0x0000#16 else crcFold s.crc (foldedBits s.crc i)) ∧
  (∀ (s t : State) (off : Nat) (v : Word), off ≠ 0x00 → access (.write 32 off v) s = .next t →
    t.crc = s.crc ∨ (off = 0x0C ∧ v.getLsbD 0 = true ∧ t.crc = 0x0000#16)) ∧
  (∀ s : State, (softReset s).crc = 0x0000#16 ∧ (assertReset s).crc = 0x0000#16)

/-! ### The staging buffer and the sink -/

/-- R55: Append delivers what is buffered first when the list would exceed the capacity, then copies the
list in; with a sink that is not ready it waits with the chunk on offer. -/
def Obligations.AppendDeliversOnOverflow : Prop :=
  ∀ (l : List Sample) (s : State), 1 ≤ l.length → l.length ≤ 34 →
    (s.occ + l.length ≤ 1024 → append l s = .ran { s with
      ob := s.ob.take s.occ ++ l ++ s.ob.drop (s.occ + l.length), occ := s.occ + l.length }) ∧
    (1024 < s.occ + l.length → 991 ≤ s.occ ∧
      (∀ r, s.sinkReady = r + 1 → append l s = .ran { s with
        ob := l ++ s.ob.drop l.length, occ := l.length, pend := none, sinkReady := r,
        delivered := s.delivered ++ [s.ob.take s.occ] }) ∧
      (s.sinkReady = 0 → append l s = .waits { s with pend := some (s.ob.take s.occ) }))

/-- R57: an offered chunk stays in PEND, BUSY held at 1, until the sink's turn, which takes it off and
appends its samples to the stream, in order, before anything else, or until a resetting move. -/
def Obligations.SinkAcceptsTheOfferedChunk : Prop :=
  (∀ s : State, s.sinkReady = 0 → deliver s = .waits { s with pend := some s.buffered }) ∧
  (∀ (s : State) (c : List Sample) (rest : List Turn), s.turns = .sink :: rest → s.pend = some c →
    ∃ t later, step s = .next t ∧ t.delivered = s.delivered ++ [c] ++ later) ∧
  (∀ (s t : State) (rest : List Turn), s.Inv → s.busy = true → s.turns = .host :: rest →
    step s = .next t → (s.ResetMove ∧ t.ResetValues) ∨ (t.busy = true ∧ t.pend = s.pend ∧ t.delivered = s.delivered))

/-- R57: the sink loses nothing it has accepted: every step only extends the delivered chunks, and every
chunk it adds to them or puts on offer holds 1 to 1024 samples. -/
def Obligations.DeliveredChunksOnlyGrow : Prop :=
  ∀ s t : State, s.Inv → step s = .next t →
    (∃ cs, t.delivered = s.delivered ++ cs ∧ ∀ c ∈ cs, 1 ≤ c.length ∧ c.length ≤ 1024) ∧
    ∀ c, t.pend = some c → 1 ≤ c.length ∧ c.length ≤ 1024

/-- R59: a chunk that an append's overflow delivers or offers holds 991 to 1024 samples; one that FLUSH
delivers or offers holds 1 to 1024. -/
def Obligations.ChunkSizes : Prop :=
  (∀ (i : Instr) (s t : State), s.Inv → s.busy = false → i ≠ .flush → exec i s = .next t →
    (∃ cs, t.delivered = s.delivered ++ cs ∧ ∀ c ∈ cs, 991 ≤ c.length ∧ c.length ≤ 1024) ∧
    ∀ c, t.pend = some c → 991 ≤ c.length ∧ c.length ≤ 1024) ∧
  (∀ (s : State) (f : InFlight) (c : List Sample), s.Inv → s.cur = some f → f.cmd ≠ .flush →
    s.pend = some c →
    (∃ cs, (sinkTurn s).delivered = s.delivered ++ [c] ++ cs ∧
      ∀ d ∈ cs, 991 ≤ d.length ∧ d.length ≤ 1024) ∧
    ∀ d, (sinkTurn s).pend = some d → 991 ≤ d.length ∧ d.length ≤ 1024) ∧
  (∀ s t : State, s.Inv → s.busy = false → exec .flush s = .next t →
    (∃ cs, t.delivered = s.delivered ++ cs ∧ ∀ c ∈ cs, 1 ≤ c.length ∧ c.length ≤ 1024) ∧
    ∀ c, t.pend = some c → 1 ≤ c.length ∧ c.length ≤ 1024)

/-- R58: when a list of commands has completed, the stream followed by the buffered samples is what it
was, followed by every sample list the commands append, in order. -/
def Obligations.CompletedCommandsConserveSamples : Prop :=
  ∀ (is : List Instr) (s t : State), s.Inv → s.busy = false → s.rst = false →
    (∀ i ∈ is, i.wellFormed = true) → CompletesAll is s t →
    t.busy = false ∧ t.stream ++ t.buffered = s.stream ++ s.buffered ++ renderingAll s.crc is

/-- No step but a resetting move loses or reorders a sample: what has been produced and what is still
owed goes on being so, and only the host's turn in an idle state adds to it, the samples of the command it
has accepted (20_memory.md R55 to R58, 43_control.md R192); and a resetting move loses none that the sink
has accepted (70_reset_and_hazards.md R251, R252). That the reset values stand already while RST is
asserted, and not only at its release, is the model's choice (log 11). -/
def Obligations.EveryStepConservesSamples : Prop :=
  ∀ s t : State, s.Inv → step s = .next t →
    (s.ResetMove ∧ t.ResetValues ∧ t.output = s.stream) ∨
    t.output ++ t.owed = s.output ++ s.owed ∨
    ∃ rest w i, s.turns = .host :: rest ∧ s.busy = false ∧ s.err = false ∧ s.rst = false ∧
      decode w = .ok i ∧ (s.held = some w ∨ ∃ as, s.host = .write 32 0x00 w :: as) ∧
      t.output ++ t.owed = s.output ++ s.owed ++ rendering s.crc i

/-- R261: a sink that goes on accepting completes every command, after at most as many acceptances as the
command has appends or flushes, with every sample produced and every bit folded. -/
def Obligations.EveryCommandCompletes : Prop :=
  ∀ (i : Instr) (s : State), i.wellFormed = true → s.Inv → s.busy = false → s.rst = false →
    s.err = false →
    ∃ u, exec i s = .next u ∧ ∃ k, k ≤ waitPoints i ∧
      (drain k u).busy = false ∧ (drain k u).cur = none ∧ (drain k u).pend = none ∧
      (drain k u).output = s.output ++ rendering s.crc i ∧
      (drain k u).crc = if i = .crcReset then 0x0000#16 else crcFold s.crc (foldedBits s.crc i)

/-! ### The synthesizer commands -/

/-- R112: SYM_BIT in each of an append's three cases: the symbol of the bit, no CRC. -/
def Obligations.SymBitRendersOneSymbol : Prop :=
  decode 0x10000000#32 = .ok (.symBit false) ∧ decode 0x10000001#32 = .ok (.symBit true) ∧
  RejectsOtherWords 0x1 (fun w => w = 0x10000000#32 ∨ w = 0x10000001#32) ∧
  ∀ (b : Bool) (s : State),
    let half := if b = true then 8 else 12
    let symbol := List.replicate half Config.pPos ++ List.replicate half Config.pNeg
    (s.occ + 2 * half ≤ 1024 → exec (.symBit b) s = .next { s with
      ob := writeCells s.ob s.occ symbol, occ := s.occ + 2 * half, cur := none, busy := false }) ∧
    (1024 < s.occ + 2 * half →
      (∀ r, s.sinkReady = r + 1 → exec (.symBit b) s = .next { s with
        ob := writeCells s.ob 0 symbol, occ := 2 * half, delivered := s.delivered ++ [s.buffered],
        sinkReady := r, pend := none, cur := none, busy := false }) ∧
      (s.sinkReady = 0 → exec (.symBit b) s = .next { s with
        pend := some s.buffered, busy := true, cur := some ⟨.symBit b, 0, 0⟩ }))

/-- R113: SYM_PREAMBLE n: the units that fit, then chunks of 56 units as far as the sink is ready, the
rest buffered; where the sink is not ready it waits with a full chunk on offer and the units done in CUR;
no unit is split and CRC is not written. -/
def Obligations.SymPreambleRendersNUnits : Prop :=
  (∀ n : Nat, n < 2 ^ 24 → decode (BitVec.ofNat 32 (0x20000000 + n)) = .ok (.symPreamble n)) ∧
  RejectsOtherWords 0x2 (fun w => w.toNat < 0x20000000 + 2 ^ 24) ∧
  ∀ (n : Nat) (s : State), s.ob.length = 1024 → s.occ ≤ 1024 →
    let unit := List.replicate 9 Config.pPos ++ List.replicate 9 Config.pNeg
    let units := fun k => (List.replicate k unit).flatten
    let fit := (1024 - s.occ) / 18
    let last := (n - fit - 1) % 56 + 1
    let full := (n - fit - 1) / 56
    (n ≤ fit → exec (.symPreamble n) s = .next { s with
      ob := writeCells s.ob s.occ (units n), occ := s.occ + 18 * n, cur := none, busy := false }) ∧
    (fit < n → full + 1 ≤ s.sinkReady → ∃ t, exec (.symPreamble n) s = .next t ∧
      t.occ = 18 * last ∧ t.buffered = units last ∧
      t.delivered = s.delivered ++ [s.buffered ++ units fit] ++ List.replicate full (units 56) ∧
      t = { s with ob := t.ob, occ := t.occ, delivered := t.delivered,
                   sinkReady := s.sinkReady - (full + 1), pend := none, cur := none, busy := false }) ∧
    (fit < n → 0 < s.sinkReady → s.sinkReady ≤ full → ∃ t, exec (.symPreamble n) s = .next t ∧
      t.buffered = units 56 ∧
      t.delivered = s.delivered ++ [s.buffered ++ units fit] ++
        List.replicate (s.sinkReady - 1) (units 56) ∧
      t = { s with ob := t.ob, occ := 1008, delivered := t.delivered, sinkReady := 0,
                   pend := some (units 56), busy := true,
                   cur := some ⟨.symPreamble n, fit + 56 * s.sinkReady, 0⟩ }) ∧
    (fit < n → s.sinkReady = 0 → exec (.symPreamble n) s = .next { s with
      ob := writeCells s.ob s.occ (units fit), occ := s.occ + 18 * fit,
      pend := some (s.buffered ++ units fit), busy := true, cur := some ⟨.symPreamble n, fit, 0⟩ })

/-- R114: SYM_SYNC in each of an append's three cases: 34 samples, no CRC. -/
def Obligations.SymSyncRendersOneTone : Prop :=
  decode 0x30000000#32 = .ok .symSync ∧ RejectsOtherWords 0x3 (· = 0x30000000#32) ∧
  ∀ s : State,
    let tone := List.replicate 17 Config.pPos ++ List.replicate 17 Config.pNeg
    (s.occ ≤ 990 → exec .symSync s = .next { s with
      ob := writeCells s.ob s.occ tone, occ := s.occ + 34, cur := none, busy := false }) ∧
    (990 < s.occ →
      (∀ r, s.sinkReady = r + 1 → exec .symSync s = .next { s with
        ob := writeCells s.ob 0 tone, occ := 34, delivered := s.delivered ++ [s.buffered],
        sinkReady := r, pend := none, cur := none, busy := false }) ∧
      (s.sinkReady = 0 → exec .symSync s = .next { s with
        pend := some s.buffered, busy := true, cur := some ⟨.symSync, 0, 0⟩ }))

/-- R115: SYM_SILENCE appends 44100 zero samples: a ready sink takes floor((k + 44099) / 1024) chunks of
1024 samples and OCC ends at ((k + 44099) mod 1024) + 1; where the sink is not ready the block waits with
the buffer full and the samples done in CUR; CRC is not written. -/
def Obligations.SymSilenceRendersOneSecond : Prop :=
  decode 0x40000000#32 = .ok .symSilence ∧ RejectsOtherWords 0x4 (· = 0x40000000#32) ∧
  ∀ s : State, s.ob.length = 1024 → s.occ ≤ 1024 →
    (((s.occ + 44100 - 1) / 1024 ≤ s.sinkReady) → ∃ t chunks, exec .symSilence s = .next t ∧
      t.delivered = s.delivered ++ chunks ∧ chunks.length = (s.occ + 44100 - 1) / 1024 ∧
      (∀ c ∈ chunks, c.length = 1024) ∧ t.occ = (s.occ + 44100 - 1) % 1024 + 1 ∧
      chunks.flatten ++ t.buffered = s.buffered ++ List.replicate 44100 0x0000#16 ∧
      t = { s with ob := t.ob, occ := t.occ, delivered := t.delivered, pend := none,
                   sinkReady := s.sinkReady - (s.occ + 44100 - 1) / 1024, cur := none,
                   busy := false }) ∧
    (s.sinkReady < (s.occ + 44100 - 1) / 1024 → ∃ t chunks, exec .symSilence s = .next t ∧
      t.delivered = s.delivered ++ chunks ∧ chunks.length = s.sinkReady ∧
      (∀ c ∈ chunks, c.length = 1024) ∧
      chunks.flatten ++ t.buffered =
        s.buffered ++ List.replicate (1024 - s.occ + 1024 * s.sinkReady) 0x0000#16 ∧
      t = { s with ob := t.ob, occ := 1024, delivered := t.delivered, sinkReady := 0,
                   pend := some t.buffered, busy := true,
                   cur := some ⟨.symSilence, 1024 - s.occ + 1024 * s.sinkReady, 0⟩ }) ∧
    (s.sinkReady = 0 → exec .symSilence s = .next { s with
      ob := writeCells s.ob s.occ (List.replicate (1024 - s.occ) 0x0000#16), occ := 1024,
      pend := some (s.buffered ++ List.replicate (1024 - s.occ) 0x0000#16), busy := true,
      cur := some ⟨.symSilence, 1024 - s.occ, 0⟩ })

/-- R116: no synthesizer command reads or writes CRC, ERR or ERRCODE, and none can fail, neither up to its
end or first wait nor when the sink's turn lets it go on. -/
def Obligations.SynthesizerIgnoresCrcAndErrors : Prop :=
  (∀ (i : Instr) (s : State), isSynthesizer i = true →
    ∃ t, exec i s = .next t ∧ t.crc = s.crc ∧ t.err = s.err ∧ t.errCode = s.errCode ∧
      ∀ (crc : Crc) (err : Bool) (errCode : BitVec 4),
        exec i { s with crc := crc, err := err, errCode := errCode } =
          .next { t with crc := crc, err := err, errCode := errCode }) ∧
  (∀ (f : InFlight) (s : State), s.cur = some f → isSynthesizer f.cmd = true →
    (sinkTurn s).crc = s.crc ∧ (sinkTurn s).err = s.err ∧ (sinkTurn s).errCode = s.errCode ∧
      ∀ (crc : Crc) (err : Bool) (errCode : BitVec 4),
        sinkTurn { s with crc := crc, err := err, errCode := errCode } =
          { sinkTurn s with crc := crc, err := err, errCode := errCode })

/-- R117: how many samples each synthesizer command appends, and eight bits. -/
def Obligations.SampleCountsOfSymbols : Prop :=
  (∀ (s t : State), s.Inv → s.busy = false → s.rst = false →
    (Completes (.symBit false) s t → t.output.length = s.output.length + 24) ∧
    (Completes (.symBit true) s t → t.output.length = s.output.length + 16) ∧
    (∀ n, n < 2 ^ 24 → Completes (.symPreamble n) s t →
      t.output.length = s.output.length + 18 * n) ∧
    (Completes .symSync s t → t.output.length = s.output.length + 34) ∧
    (Completes .symSilence s t → t.output.length = s.output.length + 44100)) ∧
  (∀ bits : List Bool, bits.length = 8 →
    (shape bits).length = (bits.map fun b => if b = true then 16 else 24).sum ∧
    (shape bits).length + 8 * popcount bits = 192)

/-- R118: the tones' fundamental frequencies at the playback rate, and a silence's one second. -/
def Obligations.ToneFrequenciesAtPlayback : Prop :=
  toneFrequency symbolBit0 = 1837.5 ∧ toneFrequency symbolBit1 = 2756.25 ∧
  toneFrequency symbolPre = 2450 ∧ toneFrequency symbolSync = 44100 / 34 ∧
  symbolSilence.length = Config.sampleRate

/-! ### The framer commands -/

/-- R160: FR_BIT renders the bit's symbol and folds it. -/
def Obligations.FrBitRendersAndFolds : Prop :=
  decode 0x70000000#32 = .ok (.frBit false) ∧ decode 0x70000001#32 = .ok (.frBit true) ∧
  RejectsOtherWords 0x7 (fun w => w = 0x70000000#32 ∨ w = 0x70000001#32) ∧
  ∀ (b : Bool) (s : State), s.ob.length = 1024 → s.occ ≤ 1024 → EmitsBits (.frBit b) 0 [b] s

/-- R161: FR_BYTE renders and folds the eight bits of the byte, least significant first. -/
def Obligations.FrByteRendersAndFolds : Prop :=
  (∀ v : BitVec 8, decode (BitVec.ofNat 32 (0x80000000 + v.toNat)) = .ok (.frByte v)) ∧
  RejectsOtherWords 0x8 (fun w => w.toNat < 0x80000000 + 2 ^ 8) ∧
  ∀ (v : BitVec 8) (s : State), s.ob.length = 1024 → s.occ ≤ 1024 →
    EmitsBits (.frByte v) 0 [v.getLsbD 0, v.getLsbD 1, v.getLsbD 2, v.getLsbD 3, v.getLsbD 4,
      v.getLsbD 5, v.getLsbD 6, v.getLsbD 7] s ∧
    (shape (byteBits v)).length + 8 * popcount (byteBits v) = 192

/-- R162: FR_WORD renders and folds the sixteen bits of the word, `v[0]` first. -/
def Obligations.FrWordRendersAndFolds : Prop :=
  (∀ v : BitVec 16, decode (BitVec.ofNat 32 (0x90000000 + v.toNat)) = .ok (.frWord v)) ∧
  RejectsOtherWords 0x9 (fun w => w.toNat < 0x90000000 + 2 ^ 16) ∧
  ∀ (v : BitVec 16) (s : State), s.ob.length = 1024 → s.occ ≤ 1024 →
    EmitsBits (.frWord v) 0 ((List.range 16).map v.getLsbD) s ∧
    (shape ((List.range 16).map v.getLsbD)).length + 8 * popcount ((List.range 16).map v.getLsbD) = 384

/-- R163: FR_CRCWORD renders and folds the sixteen bits of the CRC's value at its start. -/
def Obligations.FrCrcWordEmitsTheStartingCrc : Prop :=
  decode 0xA0000000#32 = .ok .frCrcWord ∧ RejectsOtherWords 0xA (· = 0xA0000000#32) ∧
  ∀ s : State, s.ob.length = 1024 → s.occ ≤ 1024 →
    EmitsBits .frCrcWord s.crc ((List.range 16).map s.crc.getLsbD) s

/-- R165: a framed byte appends exactly eight symbols, 192 - 8 popcount samples in all. -/
def Obligations.FramedByteSampleCount : Prop :=
  ∀ (v : BitVec 8) (s t : State), s.Inv → s.busy = false → s.rst = false → Completes (.frByte v) s t →
    (appendUnits s.crc (.frByte v)).length = 8 ∧
    t.output = s.output ++ (appendUnits s.crc (.frByte v)).flatten ∧
    t.output.length = s.output.length +
      ((List.range 8).map fun k => if v.getLsbD k = true then 16 else 24).sum ∧
    t.output.length + 8 * popcount ((List.range 8).map v.getLsbD) = s.output.length + 192

/-- R166: over any framer commands, the CRC is the fold of all their bits in emission order, and the
stream receives the bits' symbols. -/
def Obligations.FramerSerialOrder : Prop :=
  ∀ (is : List Instr) (s t : State), (∀ i ∈ is, isFramer i = true) → s.Inv → s.busy = false →
    s.rst = false → CompletesAll is s t →
    t.crc = crcFold s.crc (foldedBitsAll s.crc is) ∧
    t.output = s.output ++ shape (foldedBitsAll s.crc is)

/-! ### The control commands -/

/-- R190: NOP leaves an idle state unchanged, and completes in every state. -/
def Obligations.NopChangesNothing : Prop :=
  decode 0x00000000#32 = .ok .nop ∧ RejectsOtherWords 0x0 (· = 0x00000000#32) ∧
  (∀ s : State, exec .nop s = .next { s with cur := none, busy := false }) ∧
  ∀ s : State, s.Inv → s.busy = false → exec .nop s = .next s

/-- R191, R56: FLUSH with nothing buffered delivers nothing; else a ready sink takes all that is buffered
as one chunk, and with a sink that is not ready the block waits with it on offer. -/
def Obligations.FlushDeliversTheBuffer : Prop :=
  decode 0xB0000000#32 = .ok .flush ∧ RejectsOtherWords 0xB (· = 0xB0000000#32) ∧
  (∀ s : State, s.occ = 0 → exec .flush s = .next { s with cur := none, busy := false }) ∧
  (∀ (s : State) (r : Nat), 0 < s.occ → s.sinkReady = r + 1 → exec .flush s = .next { s with
    occ := 0, delivered := s.delivered ++ [s.buffered], sinkReady := r, pend := none, cur := none,
    busy := false }) ∧
  (∀ s : State, 0 < s.occ → s.sinkReady = 0 → exec .flush s = .next { s with
    pend := some s.buffered, busy := true, cur := some ⟨.flush, 0, 0⟩ })

/-! ### The assembler -/

/-- R90: fr.string gives the length byte and the content bytes for at most 10 bytes, and is refused for
more. -/
def Obligations.StringPseudoInstruction : Prop :=
  ∀ bytes : List (BitVec 8),
    (bytes.length ≤ 10 → assembleLine (.frString bytes) =
      .ok (.frByte (BitVec.ofNat 8 bytes.length) :: bytes.map .frByte)) ∧
    (10 < bytes.length → assembleLine (.frString bytes) = .error .filenameOverflow)

/-- R91: fr.syncmark is three words, the reset between the two bytes. -/
def Obligations.SyncmarkPseudoInstruction : Prop :=
  (assembleLine .frSyncmark = .ok [.frByte 0x00#8, .crcReset, .frByte 0x6A#8]) ∧
  [Instr.frByte 0x00#8, .crcReset, .frByte 0x6A#8].map encode =
    [0x80000000#32, 0x50000000#32, 0x8000006A#32]

/-- R88: the assembler never emits a word that decodes to a CmdError: every word of an assembled text
decodes to a well-formed command. -/
def Obligations.AssemblerEmitsOnlyLegalWords : Prop :=
  ∀ (text : List Char) (words : List Word), assemble text = .ok words →
    ∀ w ∈ words, ∃ i, decode w = .ok i ∧ i.wellFormed = true
end

