-- ==== Sys2Proof/Laws/State.lean ====
section
/-! SUPPORT. One lemma per field per update of State, so that no later proof unfolds a record update. -/

namespace Sys2Proof.Machine

section
variable (s : State) (c : List Sample)

@[simp] theorem acceptChunk_crc : (s.acceptChunk c).crc = s.crc := rfl
@[simp] theorem acceptChunk_ob : (s.acceptChunk c).ob = s.ob := rfl
@[simp] theorem acceptChunk_occ : (s.acceptChunk c).occ = 0 := rfl
@[simp] theorem acceptChunk_busy : (s.acceptChunk c).busy = s.busy := rfl
@[simp] theorem acceptChunk_err : (s.acceptChunk c).err = s.err := rfl
@[simp] theorem acceptChunk_errCode : (s.acceptChunk c).errCode = s.errCode := rfl
@[simp] theorem acceptChunk_cur : (s.acceptChunk c).cur = s.cur := rfl
@[simp] theorem acceptChunk_pend : (s.acceptChunk c).pend = none := rfl
@[simp] theorem acceptChunk_delivered : (s.acceptChunk c).delivered = s.delivered ++ [c] := rfl
@[simp] theorem acceptChunk_rst : (s.acceptChunk c).rst = s.rst := rfl
@[simp] theorem acceptChunk_held : (s.acceptChunk c).held = s.held := rfl
@[simp] theorem acceptChunk_cmdIndex : (s.acceptChunk c).cmdIndex = s.cmdIndex := rfl
@[simp] theorem acceptChunk_sinkReady : (s.acceptChunk c).sinkReady = s.sinkReady := rfl
@[simp] theorem acceptChunk_host : (s.acceptChunk c).host = s.host := rfl
@[simp] theorem acceptChunk_turns : (s.acceptChunk c).turns = s.turns := rfl
@[simp] theorem acceptChunk_reads : (s.acceptChunk c).reads = s.reads := rfl
@[simp] theorem acceptChunk_draws : (s.acceptChunk c).draws = s.draws := rfl

end

section
variable (s : State) (l : List Sample)

@[simp] theorem copyIn_crc : (s.copyIn l).crc = s.crc := rfl
@[simp] theorem copyIn_ob : (s.copyIn l).ob = writeCells s.ob s.occ l := rfl
@[simp] theorem copyIn_occ : (s.copyIn l).occ = s.occ + l.length := rfl
@[simp] theorem copyIn_busy : (s.copyIn l).busy = s.busy := rfl
@[simp] theorem copyIn_err : (s.copyIn l).err = s.err := rfl
@[simp] theorem copyIn_errCode : (s.copyIn l).errCode = s.errCode := rfl
@[simp] theorem copyIn_cur : (s.copyIn l).cur = s.cur := rfl
@[simp] theorem copyIn_pend : (s.copyIn l).pend = s.pend := rfl
@[simp] theorem copyIn_delivered : (s.copyIn l).delivered = s.delivered := rfl
@[simp] theorem copyIn_rst : (s.copyIn l).rst = s.rst := rfl
@[simp] theorem copyIn_held : (s.copyIn l).held = s.held := rfl
@[simp] theorem copyIn_cmdIndex : (s.copyIn l).cmdIndex = s.cmdIndex := rfl
@[simp] theorem copyIn_sinkReady : (s.copyIn l).sinkReady = s.sinkReady := rfl
@[simp] theorem copyIn_host : (s.copyIn l).host = s.host := rfl
@[simp] theorem copyIn_turns : (s.copyIn l).turns = s.turns := rfl
@[simp] theorem copyIn_reads : (s.copyIn l).reads = s.reads := rfl
@[simp] theorem copyIn_draws : (s.copyIn l).draws = s.draws := rfl

end

section
variable (s : State) (b : Bool)

@[simp] theorem foldBit_crc : (foldBit b s).crc = crcStep s.crc b := rfl
@[simp] theorem foldBit_ob : (foldBit b s).ob = s.ob := rfl
@[simp] theorem foldBit_occ : (foldBit b s).occ = s.occ := rfl
@[simp] theorem foldBit_busy : (foldBit b s).busy = s.busy := rfl
@[simp] theorem foldBit_err : (foldBit b s).err = s.err := rfl
@[simp] theorem foldBit_errCode : (foldBit b s).errCode = s.errCode := rfl
@[simp] theorem foldBit_cur : (foldBit b s).cur = s.cur := rfl
@[simp] theorem foldBit_pend : (foldBit b s).pend = s.pend := rfl
@[simp] theorem foldBit_delivered : (foldBit b s).delivered = s.delivered := rfl
@[simp] theorem foldBit_rst : (foldBit b s).rst = s.rst := rfl
@[simp] theorem foldBit_held : (foldBit b s).held = s.held := rfl
@[simp] theorem foldBit_cmdIndex : (foldBit b s).cmdIndex = s.cmdIndex := rfl
@[simp] theorem foldBit_sinkReady : (foldBit b s).sinkReady = s.sinkReady := rfl
@[simp] theorem foldBit_host : (foldBit b s).host = s.host := rfl
@[simp] theorem foldBit_turns : (foldBit b s).turns = s.turns := rfl
@[simp] theorem foldBit_reads : (foldBit b s).reads = s.reads := rfl
@[simp] theorem foldBit_draws : (foldBit b s).draws = s.draws := rfl

end

section
variable (s : State) (k : Nat)

@[simp] theorem withProgress_crc : (s.withProgress k).crc = s.crc := rfl
@[simp] theorem withProgress_ob : (s.withProgress k).ob = s.ob := rfl
@[simp] theorem withProgress_occ : (s.withProgress k).occ = s.occ := rfl
@[simp] theorem withProgress_busy : (s.withProgress k).busy = s.busy := rfl
@[simp] theorem withProgress_err : (s.withProgress k).err = s.err := rfl
@[simp] theorem withProgress_errCode : (s.withProgress k).errCode = s.errCode := rfl
@[simp] theorem withProgress_cur : (s.withProgress k).cur = s.cur.map fun c => { c with done := k } := rfl
@[simp] theorem withProgress_pend : (s.withProgress k).pend = s.pend := rfl
@[simp] theorem withProgress_delivered : (s.withProgress k).delivered = s.delivered := rfl
@[simp] theorem withProgress_rst : (s.withProgress k).rst = s.rst := rfl
@[simp] theorem withProgress_held : (s.withProgress k).held = s.held := rfl
@[simp] theorem withProgress_cmdIndex : (s.withProgress k).cmdIndex = s.cmdIndex := rfl
@[simp] theorem withProgress_sinkReady : (s.withProgress k).sinkReady = s.sinkReady := rfl
@[simp] theorem withProgress_host : (s.withProgress k).host = s.host := rfl
@[simp] theorem withProgress_turns : (s.withProgress k).turns = s.turns := rfl
@[simp] theorem withProgress_reads : (s.withProgress k).reads = s.reads := rfl
@[simp] theorem withProgress_draws : (s.withProgress k).draws = s.draws := rfl

end

section
variable (s : State) (i : Instr) (snapshot : Crc)

@[simp] theorem accept_crc : (s.accept i snapshot).crc = s.crc := rfl
@[simp] theorem accept_ob : (s.accept i snapshot).ob = s.ob := rfl
@[simp] theorem accept_occ : (s.accept i snapshot).occ = s.occ := rfl
@[simp] theorem accept_busy : (s.accept i snapshot).busy = true := rfl
@[simp] theorem accept_err : (s.accept i snapshot).err = s.err := rfl
@[simp] theorem accept_errCode : (s.accept i snapshot).errCode = s.errCode := rfl
@[simp] theorem accept_cur : (s.accept i snapshot).cur = some ⟨i, 0, snapshot⟩ := rfl
@[simp] theorem accept_pend : (s.accept i snapshot).pend = s.pend := rfl
@[simp] theorem accept_delivered : (s.accept i snapshot).delivered = s.delivered := rfl
@[simp] theorem accept_rst : (s.accept i snapshot).rst = s.rst := rfl
@[simp] theorem accept_held : (s.accept i snapshot).held = s.held := rfl
@[simp] theorem accept_cmdIndex : (s.accept i snapshot).cmdIndex = s.cmdIndex := rfl
@[simp] theorem accept_sinkReady : (s.accept i snapshot).sinkReady = s.sinkReady := rfl
@[simp] theorem accept_host : (s.accept i snapshot).host = s.host := rfl
@[simp] theorem accept_turns : (s.accept i snapshot).turns = s.turns := rfl
@[simp] theorem accept_reads : (s.accept i snapshot).reads = s.reads := rfl
@[simp] theorem accept_draws : (s.accept i snapshot).draws = s.draws := rfl

end

section
variable (s : State) 

@[simp] theorem settle_ran_crc : (settle (.ran s)).crc = s.crc := rfl
@[simp] theorem settle_ran_ob : (settle (.ran s)).ob = s.ob := rfl
@[simp] theorem settle_ran_occ : (settle (.ran s)).occ = s.occ := rfl
@[simp] theorem settle_ran_busy : (settle (.ran s)).busy = false := rfl
@[simp] theorem settle_ran_err : (settle (.ran s)).err = s.err := rfl
@[simp] theorem settle_ran_errCode : (settle (.ran s)).errCode = s.errCode := rfl
@[simp] theorem settle_ran_cur : (settle (.ran s)).cur = none := rfl
@[simp] theorem settle_ran_pend : (settle (.ran s)).pend = s.pend := rfl
@[simp] theorem settle_ran_delivered : (settle (.ran s)).delivered = s.delivered := rfl
@[simp] theorem settle_ran_rst : (settle (.ran s)).rst = s.rst := rfl
@[simp] theorem settle_ran_held : (settle (.ran s)).held = s.held := rfl
@[simp] theorem settle_ran_cmdIndex : (settle (.ran s)).cmdIndex = s.cmdIndex := rfl
@[simp] theorem settle_ran_sinkReady : (settle (.ran s)).sinkReady = s.sinkReady := rfl
@[simp] theorem settle_ran_host : (settle (.ran s)).host = s.host := rfl
@[simp] theorem settle_ran_turns : (settle (.ran s)).turns = s.turns := rfl
@[simp] theorem settle_ran_reads : (settle (.ran s)).reads = s.reads := rfl
@[simp] theorem settle_ran_draws : (settle (.ran s)).draws = s.draws := rfl

end

section
variable (s : State) (e : CmdError)

@[simp] theorem raiseCmdError_crc : (raiseCmdError e s).crc = s.crc := rfl
@[simp] theorem raiseCmdError_ob : (raiseCmdError e s).ob = s.ob := rfl
@[simp] theorem raiseCmdError_occ : (raiseCmdError e s).occ = s.occ := rfl
@[simp] theorem raiseCmdError_busy : (raiseCmdError e s).busy = s.busy := rfl
@[simp] theorem raiseCmdError_err : (raiseCmdError e s).err = true := rfl
@[simp] theorem raiseCmdError_errCode : (raiseCmdError e s).errCode = cmdErrorCode e := rfl
@[simp] theorem raiseCmdError_cur : (raiseCmdError e s).cur = s.cur := rfl
@[simp] theorem raiseCmdError_pend : (raiseCmdError e s).pend = s.pend := rfl
@[simp] theorem raiseCmdError_delivered : (raiseCmdError e s).delivered = s.delivered := rfl
@[simp] theorem raiseCmdError_rst : (raiseCmdError e s).rst = s.rst := rfl
@[simp] theorem raiseCmdError_held : (raiseCmdError e s).held = s.held := rfl
@[simp] theorem raiseCmdError_cmdIndex : (raiseCmdError e s).cmdIndex = s.cmdIndex := rfl
@[simp] theorem raiseCmdError_sinkReady : (raiseCmdError e s).sinkReady = s.sinkReady := rfl
@[simp] theorem raiseCmdError_host : (raiseCmdError e s).host = s.host := rfl
@[simp] theorem raiseCmdError_turns : (raiseCmdError e s).turns = s.turns := rfl
@[simp] theorem raiseCmdError_reads : (raiseCmdError e s).reads = s.reads := rfl
@[simp] theorem raiseCmdError_draws : (raiseCmdError e s).draws = s.draws := rfl

end

section
variable (s : State) 

@[simp] theorem softReset_crc : (softReset s).crc = Config.crcResetVal := rfl
@[simp] theorem softReset_ob : (softReset s).ob = unspecifiedCells s.draws := by rw [softReset]
@[simp] theorem softReset_occ : (softReset s).occ = 0 := rfl
@[simp] theorem softReset_busy : (softReset s).busy = false := rfl
@[simp] theorem softReset_err : (softReset s).err = false := rfl
@[simp] theorem softReset_errCode : (softReset s).errCode = 0 := rfl
@[simp] theorem softReset_cur : (softReset s).cur = none := rfl
@[simp] theorem softReset_pend : (softReset s).pend = none := rfl
@[simp] theorem softReset_delivered : (softReset s).delivered = s.delivered := rfl
@[simp] theorem softReset_rst : (softReset s).rst = s.rst := rfl
@[simp] theorem softReset_held : (softReset s).held = s.held := rfl
@[simp] theorem softReset_cmdIndex : (softReset s).cmdIndex = s.cmdIndex := rfl
@[simp] theorem softReset_sinkReady : (softReset s).sinkReady = s.sinkReady := rfl
@[simp] theorem softReset_host : (softReset s).host = s.host := rfl
@[simp] theorem softReset_turns : (softReset s).turns = s.turns := rfl
@[simp] theorem softReset_reads : (softReset s).reads = s.reads := rfl
@[simp] theorem softReset_draws : (softReset s).draws = s.draws + 1 := rfl

end

section
variable (s : State) 

@[simp] theorem assertReset_crc : (assertReset s).crc = Config.crcResetVal := rfl
@[simp] theorem assertReset_ob : (assertReset s).ob = unspecifiedCells s.draws := by rw [assertReset, softReset]
@[simp] theorem assertReset_occ : (assertReset s).occ = 0 := rfl
@[simp] theorem assertReset_busy : (assertReset s).busy = false := rfl
@[simp] theorem assertReset_err : (assertReset s).err = false := rfl
@[simp] theorem assertReset_errCode : (assertReset s).errCode = 0 := rfl
@[simp] theorem assertReset_cur : (assertReset s).cur = none := rfl
@[simp] theorem assertReset_pend : (assertReset s).pend = none := rfl
@[simp] theorem assertReset_delivered : (assertReset s).delivered = s.delivered := rfl
@[simp] theorem assertReset_rst : (assertReset s).rst = true := rfl
@[simp] theorem assertReset_held : (assertReset s).held = none := rfl
@[simp] theorem assertReset_cmdIndex : (assertReset s).cmdIndex = s.cmdIndex + if s.held.isSome then 1 else 0 := rfl
@[simp] theorem assertReset_sinkReady : (assertReset s).sinkReady = s.sinkReady := rfl
@[simp] theorem assertReset_host : (assertReset s).host = s.host := rfl
@[simp] theorem assertReset_turns : (assertReset s).turns = s.turns := rfl
@[simp] theorem assertReset_reads : (assertReset s).reads = s.reads := rfl
@[simp] theorem assertReset_draws : (assertReset s).draws = s.draws + 1 := rfl

end

section
variable (s : State) (v : Word)

@[simp] theorem answer_crc : (s.answer v).crc = s.crc := rfl
@[simp] theorem answer_ob : (s.answer v).ob = s.ob := rfl
@[simp] theorem answer_occ : (s.answer v).occ = s.occ := rfl
@[simp] theorem answer_busy : (s.answer v).busy = s.busy := rfl
@[simp] theorem answer_err : (s.answer v).err = s.err := rfl
@[simp] theorem answer_errCode : (s.answer v).errCode = s.errCode := rfl
@[simp] theorem answer_cur : (s.answer v).cur = s.cur := rfl
@[simp] theorem answer_pend : (s.answer v).pend = s.pend := rfl
@[simp] theorem answer_delivered : (s.answer v).delivered = s.delivered := rfl
@[simp] theorem answer_rst : (s.answer v).rst = s.rst := rfl
@[simp] theorem answer_held : (s.answer v).held = s.held := rfl
@[simp] theorem answer_cmdIndex : (s.answer v).cmdIndex = s.cmdIndex := rfl
@[simp] theorem answer_sinkReady : (s.answer v).sinkReady = s.sinkReady := rfl
@[simp] theorem answer_host : (s.answer v).host = s.host := rfl
@[simp] theorem answer_turns : (s.answer v).turns = s.turns := rfl
@[simp] theorem answer_reads : (s.answer v).reads = s.reads ++ [v] := rfl
@[simp] theorem answer_draws : (s.answer v).draws = s.draws := rfl

end

section
variable (s : State) (w : Word)

@[simp] theorem placeCommand_crc : (placeCommand w s).crc = s.crc := rfl
@[simp] theorem placeCommand_ob : (placeCommand w s).ob = s.ob := rfl
@[simp] theorem placeCommand_occ : (placeCommand w s).occ = s.occ := rfl
@[simp] theorem placeCommand_busy : (placeCommand w s).busy = s.busy := rfl
@[simp] theorem placeCommand_err : (placeCommand w s).err = s.err := rfl
@[simp] theorem placeCommand_errCode : (placeCommand w s).errCode = s.errCode := rfl
@[simp] theorem placeCommand_cur : (placeCommand w s).cur = s.cur := rfl
@[simp] theorem placeCommand_pend : (placeCommand w s).pend = s.pend := rfl
@[simp] theorem placeCommand_delivered : (placeCommand w s).delivered = s.delivered := rfl
@[simp] theorem placeCommand_rst : (placeCommand w s).rst = s.rst := rfl
@[simp] theorem placeCommand_held : (placeCommand w s).held = none := rfl
@[simp] theorem placeCommand_cmdIndex : (placeCommand w s).cmdIndex = s.cmdIndex := rfl
@[simp] theorem placeCommand_sinkReady : (placeCommand w s).sinkReady = s.sinkReady := rfl
@[simp] theorem placeCommand_host : (placeCommand w s).host = .write 32 0x00 w :: s.host := rfl
@[simp] theorem placeCommand_turns : (placeCommand w s).turns = .host :: s.turns := rfl
@[simp] theorem placeCommand_reads : (placeCommand w s).reads = s.reads := rfl
@[simp] theorem placeCommand_draws : (placeCommand w s).draws = s.draws := rfl

end

@[simp] theorem settle_waits (s : State) : settle (.waits s) = s := rfl

end Sys2Proof.Machine
end

