-- ==== Sys2Proof/Laws/Buffer.lean ====
section
/-! SUPPORT. The staging buffer's cells: every write keeps the canonical form, changes only the cells it
names, and extends what is buffered (20_memory.md R55). -/

namespace Sys2Proof.Machine

theorem unspecifiedCells_length (d : Nat) : (unspecifiedCells d).length = 1024 := by
  unfold unspecifiedCells
  rw [List.length_map, List.length_range]
  rfl

/-- Power-on leaves `OB` in its canonical form. -/
theorem reset_buffer_wf : Buffer.wf State.reset.ob = true := by
  simp [Buffer.wf, State.reset, unspecifiedCells_length, Config.bufCap]

theorem writeCells_length {ob l : List Sample} {o : Nat} (h : o + l.length ≤ ob.length) :
    (writeCells ob o l).length = ob.length := by
  simp [writeCells]; omega

/-- A write that stays inside the buffer keeps its canonical form. -/
theorem writeCells_wf {ob l : List Sample} {o : Nat} (hw : Buffer.wf ob = true)
    (h : o + l.length ≤ 1024) : Buffer.wf (writeCells ob o l) = true := by
  simp only [Buffer.wf, beq_iff_eq, Config.bufCap] at *
  rw [writeCells_length (by omega), hw]

theorem softReset_wf (s : State) : Buffer.wf (softReset s).ob = true := by
  simp [Buffer.wf, unspecifiedCells_length, Config.bufCap]

/-- The cells up to the end of a write: those before it, then the written samples. -/
theorem writeCells_take {ob l : List Sample} {o : Nat} (h : o ≤ ob.length) :
    (writeCells ob o l).take (o + l.length) = ob.take o ++ l := by
  rw [writeCells, List.take_append_of_le_length (by simp; omega), List.take_of_length_le]
  simp

/-- The cell at any index after a write. -/
theorem writeCells_getElem? {ob l : List Sample} {o : Nat} (h : o ≤ ob.length) (j : Nat) :
    (writeCells ob o l)[j]? =
      if j < o then ob[j]? else if j < o + l.length then l[j - o]? else ob[j]? := by
  simp only [writeCells, List.getElem?_append, List.length_append, List.length_take,
    List.getElem?_take, List.getElem?_drop, Nat.min_eq_left h]
  split_ifs <;> first | rfl | omega | (congr 1; omega)

theorem writeCells_nil {ob : List Sample} {o : Nat} : writeCells ob o [] = ob := by
  simp [writeCells]

/-- Two writes one after the other are one write of both lists. -/
theorem writeCells_writeCells {ob l₁ l₂ : List Sample} {o : Nat} (h : o ≤ ob.length) :
    writeCells (writeCells ob o l₁) (o + l₁.length) l₂ = writeCells ob o (l₁ ++ l₂) := by
  apply List.ext_getElem?
  intro j
  rcases Nat.lt_or_ge ob.length (o + l₁.length) with hlt | hge
  · rw [writeCells, writeCells_take h]
    rw [writeCells, writeCells, List.drop_eq_nil_of_le (by simp; omega),
      List.drop_eq_nil_of_le (by simp; omega)]
    simp
  · rw [writeCells_getElem? (by rw [writeCells_length] <;> omega), writeCells_getElem? h,
      writeCells_getElem? h]
    simp only [List.length_append, List.getElem?_append]
    split_ifs <;> first | rfl | omega | (congr 1; omega)

theorem copyIn_buffered {s : State} {l : List Sample} (h : s.occ ≤ s.ob.length) :
    (s.copyIn l).buffered = s.buffered ++ l := by
  simp [State.buffered, writeCells_take h]

theorem buffered_length {s : State} (h : s.occ ≤ s.ob.length) : s.buffered.length = s.occ := by
  simp [State.buffered, h]

@[simp] theorem acceptChunk_buffered (s : State) (c : List Sample) :
    (s.acceptChunk c).buffered = [] := by
  simp [State.buffered]

@[simp] theorem acceptChunk_stream (s : State) (c : List Sample) :
    (s.acceptChunk c).stream = s.stream ++ c := by
  simp [State.stream]

/-- Accepting all that is buffered moves it to the stream and loses nothing. -/
theorem acceptChunk_output (s : State) : (s.acceptChunk s.buffered).output = s.output := by
  simp [State.output]

theorem copyIn_output {s : State} {l : List Sample} (h : s.occ ≤ s.ob.length) :
    (s.copyIn l).output = s.output ++ l := by
  simp [State.output, copyIn_buffered h, State.stream]

end Sys2Proof.Machine
end

