-- ==== Sys2Proof/Laws/Crc.lean ====
section
/-! SUPPORT. The fold of the CRC over lists of bits (41_crc.md R144). -/

namespace Sys2Proof.Machine

@[simp] theorem crcFold_nil (s : Crc) : crcFold s [] = s := rfl

@[simp] theorem crcFold_cons (s : Crc) (b : Bool) (bits : List Bool) :
    crcFold s (b :: bits) = crcFold (crcStep s b) bits := rfl

theorem crcFold_append (s : Crc) (as bs : List Bool) :
    crcFold s (as ++ bs) = crcFold (crcFold s as) bs := by
  simp [crcFold, List.foldl_append]

@[simp] theorem byteBits_length (v : BitVec 8) : (byteBits v).length = 8 := by simp [byteBits]

@[simp] theorem wordBits_length (v : BitVec 16) : (wordBits v).length = 16 := by simp [wordBits]

@[simp] theorem symbolBit0_length : symbolBit0.length = 24 := by simp [symbolBit0, level]

@[simp] theorem symbolBit1_length : symbolBit1.length = 16 := by simp [symbolBit1, level]

@[simp] theorem symbolPre_length : symbolPre.length = 18 := by simp [symbolPre, level]

@[simp] theorem symbolSync_length : symbolSync.length = 34 := by simp [symbolSync, level]

/-- A bit's symbol has 16 samples for a 1 and 24 for a 0 (40_synthesizer.md R117). -/
theorem bitSymbol_length (b : Bool) : (bitSymbol b).length = if b then 16 else 24 := by
  cases b <;> simp [bitSymbol]

end Sys2Proof.Machine
end

