-- ==== Sys2Proof/Laws/Ops.lean ====
section
/-! SUPPORT. What each shared operation can do, said once: the cases of delivery, append and flush
(20_memory.md R55 to R57), and the rule for reasoning about a loop over units. -/

namespace Sys2Proof.Machine

/-- `s` after the sink, ready for `r + 1` chunks, has taken all that is buffered (R57). -/
def State.delivering (s : State) (r : Nat) : State :=
  { s with sinkReady := r }.acceptChunk s.buffered

/-- `s` offering all that is buffered to a sink that is not ready (R57). -/
def State.offering (s : State) : State := { s with pend := some s.buffered }

section
variable (s : State) (r : Nat)

@[simp] theorem delivering_crc : (s.delivering r).crc = s.crc := rfl
@[simp] theorem delivering_ob : (s.delivering r).ob = s.ob := rfl
@[simp] theorem delivering_occ : (s.delivering r).occ = 0 := rfl
@[simp] theorem delivering_cur : (s.delivering r).cur = s.cur := rfl
@[simp] theorem delivering_pend : (s.delivering r).pend = none := rfl
@[simp] theorem delivering_delivered :
    (s.delivering r).delivered = s.delivered ++ [s.buffered] := rfl
@[simp] theorem delivering_sinkReady : (s.delivering r).sinkReady = r := rfl
@[simp] theorem delivering_buffered : (s.delivering r).buffered = [] := by simp [State.buffered]
@[simp] theorem delivering_output : (s.delivering r).output = s.output := by
  simp [State.output, State.stream]
@[simp] theorem offering_crc : s.offering.crc = s.crc := rfl
@[simp] theorem offering_ob : s.offering.ob = s.ob := rfl
@[simp] theorem offering_occ : s.offering.occ = s.occ := rfl
@[simp] theorem offering_cur : s.offering.cur = s.cur := rfl
@[simp] theorem offering_delivered : s.offering.delivered = s.delivered := rfl
@[simp] theorem offering_pend : s.offering.pend = some s.buffered := rfl
@[simp] theorem offering_sinkReady : s.offering.sinkReady = s.sinkReady := rfl
@[simp] theorem offering_buffered : s.offering.buffered = s.buffered := rfl
@[simp] theorem offering_output : s.offering.output = s.output := rfl

end

/-- Delivery: the sink takes the chunk at once, or the block waits with it on offer. -/
theorem deliver_cases (s : State) :
    (∃ r, s.sinkReady = r + 1 ∧ deliver s = .ran (s.delivering r)) ∨
      (s.sinkReady = 0 ∧ deliver s = .waits s.offering) := by
  cases h : s.sinkReady with
  | zero => exact .inr ⟨rfl, by simp [deliver, h, State.offering]⟩
  | succ r => exact .inl ⟨r, rfl, by simp [deliver, h, State.delivering]⟩

/-- Append, first case: the list fits. -/
theorem append_fits {s : State} {l : List Sample} (h : s.occ + l.length ≤ 1024) :
    append l s = .ran (s.copyIn l) := by
  simp [append, Config.bufCap]; omega

/-- Append, second case: what is buffered goes to a ready sink first. -/
theorem append_overflows {s : State} {l : List Sample} {r : Nat} (h : 1024 < s.occ + l.length)
    (hr : s.sinkReady = r + 1) : append l s = .ran ((s.delivering r).copyIn l) := by
  simp [append, Config.bufCap, h, deliver, hr, State.delivering]

/-- Append, third case: the block waits for the sink. -/
theorem append_waits {s : State} {l : List Sample} (h : 1024 < s.occ + l.length)
    (hr : s.sinkReady = 0) : append l s = .waits s.offering := by
  simp [append, Config.bufCap, h, deliver, hr, State.offering]

/-- Everything an append can do. -/
theorem append_cases (l : List Sample) (s : State) :
    (s.occ + l.length ≤ 1024 ∧ append l s = .ran (s.copyIn l)) ∨
      (∃ r, 1024 < s.occ + l.length ∧ s.sinkReady = r + 1 ∧
        append l s = .ran ((s.delivering r).copyIn l)) ∨
      (1024 < s.occ + l.length ∧ s.sinkReady = 0 ∧ append l s = .waits s.offering) := by
  rcases Nat.lt_or_ge 1024 (s.occ + l.length) with h | h
  · cases hr : s.sinkReady with
    | zero => exact .inr (.inr ⟨h, rfl, append_waits h hr⟩)
    | succ r => exact .inr (.inl ⟨r, h, rfl, append_overflows h hr⟩)
  · exact .inl ⟨h, append_fits h⟩

/-- Everything a flush can do. -/
theorem flushBuffer_cases (s : State) :
    (s.occ = 0 ∧ flushBuffer s = .ran s) ∨
      (∃ r, 0 < s.occ ∧ s.sinkReady = r + 1 ∧ flushBuffer s = .ran (s.delivering r)) ∨
      (0 < s.occ ∧ s.sinkReady = 0 ∧ flushBuffer s = .waits s.offering) := by
  rcases Nat.eq_zero_or_pos s.occ with h | h
  · exact .inl ⟨h, by simp [flushBuffer, h]⟩
  · rcases deliver_cases s with ⟨r, hr, hd⟩ | ⟨hr, hd⟩
    · exact .inr (.inl ⟨r, h, hr, by simp [flushBuffer, h, hd]⟩)
    · exact .inr (.inr ⟨h, hr, by simp [flushBuffer, h, hd]⟩)

/-- Everything a rendered and folded bit can do: the append's cases, with the fold where it ran. -/
theorem emitBit_cases (b : Bool) (s : State) :
    (∃ u, append (bitSymbol b) s = .ran u ∧ emitBit b s = .ran (foldBit b u)) ∨
      (∃ u, append (bitSymbol b) s = .waits u ∧ emitBit b s = .waits u) := by
  cases h : append (bitSymbol b) s with
  | ran u => exact .inl ⟨u, rfl, by simp [emitBit, h]⟩
  | waits u => exact .inr ⟨u, rfl, by simp [emitBit, h]⟩

/-- The rule for a loop over units: a property of the units done that every unit carries on holds where
the loop ends, and where it waits it held before the unit that waits. -/
theorem repeatUnits_spec {unit : Nat → State → Flow} (P : Nat → State → Prop) :
    ∀ (left k : Nat) (s : State), P k s →
      (∀ j u u', k ≤ j → j < k + left → P j u → unit j u = .ran u' → P (j + 1) u') →
      (∃ t, repeatUnits unit left k s = .ran t ∧ P (k + left) t) ∨
        (∃ j u u', k ≤ j ∧ j < k + left ∧ P j u ∧ unit j u = .waits u' ∧
          repeatUnits unit left k s = .waits (u'.withProgress j)) := by
  intro left
  induction left with
  | zero => intro k s hp _; exact .inl ⟨s, rfl, hp⟩
  | succ left ih =>
    intro k s hp hstep
    cases hu : unit k s with
    | waits u' => exact .inr ⟨k, s, u', le_refl k, by omega, hp, hu, by simp [repeatUnits, hu]⟩
    | ran u' =>
      have hp' := hstep k s u' (le_refl k) (by omega) hp hu
      have hrep : repeatUnits unit (left + 1) k s = repeatUnits unit left (k + 1) u' := by
        simp [repeatUnits, hu]
      rw [hrep]
      rcases ih (k + 1) u' hp' (fun j u v hj hl => hstep j u v (by omega) (by omega)) with
        ⟨t, ht, hpt⟩ | ⟨j, u, v, hj, hl, hpj, hw, hr⟩
      · exact .inl ⟨t, ht, by rwa [show k + (left + 1) = k + 1 + left by omega]⟩
      · exact .inr ⟨j, u, v, by omega, by omega, hpj, hw, hr⟩

/-- Every accepted command ends in a next state: its run, settled. -/
theorem runCommand_next (i : Instr) (snapshot : Crc) (body : State → Flow) (s : State) :
    runCommand i snapshot body s = .next (settle (body (s.accept i snapshot))) := rfl

/-- A command error changes ERR, ERRCODE and nothing else (60_exceptions.md R222). -/
theorem raiseCmdError_eq (e : CmdError) (s : State) :
    raiseCmdError e s = { s with err := true, errCode := cmdErrorCode e } := rfl

end Sys2Proof.Machine
end

