-- ==== Sys2Proof/Laws/Flow.lean ====
section
/-! SUPPORT. What a command's body does between its start and its end or its next wait: the samples it
has produced and still has to append, the bits it has folded and still has to fold, and the state it
leaves alone (20_memory.md R55 to R58, 10_state.md R26). -/

namespace Sys2Proof.Machine

/-- How a command that appends `units` and folds `bits` goes from `s` with `k` units done to `u` with
`j` done: nothing is lost of its samples or its bits, and only the elements a body may write differ. -/
structure Progress (units : List (List Sample)) (bits : List Bool)
    (s : State) (k : Nat) (u : State) (j : Nat) : Prop where
  samples : u.output ++ (units.drop j).flatten = s.output ++ (units.drop k).flatten
  fold : crcFold u.crc (bits.drop j) = crcFold s.crc (bits.drop k)
  ob_wf : u.ob.length = 1024
  occ_le : u.occ ≤ 1024
  frame : u = { s with crc := u.crc, ob := u.ob, occ := u.occ, pend := u.pend,
                       delivered := u.delivered, sinkReady := u.sinkReady }
  pend : u.pend = s.pend ∨ u.pend = none
  chunks : ∃ cs, u.delivered = s.delivered ++ cs
  sink : u.sinkReady + (j - k) ≥ s.sinkReady

theorem Progress.refl {units : List (List Sample)} {bits : List Bool} {s : State} {k : Nat}
    (hob : s.ob.length = 1024) (hocc : s.occ ≤ 1024) : Progress units bits s k s k :=
  ⟨rfl, rfl, hob, hocc, rfl, .inl rfl, ⟨[], by simp⟩, by omega⟩

/-- What an append that ran has done. -/
structure Appended (l : List Sample) (u v : State) : Prop where
  output : v.output = u.output ++ l
  crc : v.crc = u.crc
  ob_wf : v.ob.length = 1024
  occ_le : v.occ ≤ 1024
  frame : v = { u with ob := v.ob, occ := v.occ, pend := v.pend,
                       delivered := v.delivered, sinkReady := v.sinkReady }
  pend : v.pend = u.pend ∨ v.pend = none
  chunks : ∃ cs, v.delivered = u.delivered ++ cs
  sink : v.sinkReady + 1 ≥ u.sinkReady

/-- An append that runs adds its list to the block's output and changes nothing but the buffer and the
sink's side. -/
theorem append_ran {l : List Sample} {u v : State} (hob : u.ob.length = 1024) (hocc : u.occ ≤ 1024)
    (hl : l.length ≤ 1024) (ha : append l u = .ran v) : Appended l u v := by
  rcases append_cases l u with ⟨hle, he⟩ | ⟨r, hlt, hr, he⟩ | ⟨hlt, hr, he⟩ <;>
    rw [ha] at he <;> cases he
  · exact ⟨copyIn_output (by omega), rfl, by simp [writeCells_length, hob, hle], by simpa using hle,
      rfl, .inl rfl, ⟨[], by simp⟩, by simp⟩
  · refine ⟨?_, rfl, ?_, by simpa using hl, rfl, .inr rfl, ⟨[u.buffered], rfl⟩, by simp; omega⟩
    · rw [copyIn_output (by simp), delivering_output]
    · simp only [copyIn_ob, delivering_ob, delivering_occ]
      rw [writeCells_length (by omega), hob]

/-- One append carries a command one unit on. -/
theorem Progress.append {units : List (List Sample)} {bits : List Bool} {s u v : State} {k j : Nat}
    {l : List Sample} (h : Progress units bits s k u j) (hl : l.length ≤ 1024) (hkj : k ≤ j)
    (hu : units.drop j = l :: units.drop (j + 1)) (hb : bits.drop j = bits.drop (j + 1))
    (ha : append l u = .ran v) : Progress units bits s k v (j + 1) := by
  have h' := append_ran h.ob_wf h.occ_le hl ha
  obtain ⟨cs, hcs⟩ := h.chunks
  obtain ⟨ds, hds⟩ := h'.chunks
  have hs := h.samples
  have h1 := h.sink
  have h2 := h'.sink
  refine ⟨?_, ?_, h'.ob_wf, h'.occ_le, ?_, ?_, ⟨cs ++ ds, by rw [hds, hcs, List.append_assoc]⟩,
    by omega⟩
  · rw [h'.output, ← hs, hu]; simp
  · rw [h'.crc, ← hb, h.fold]
  · rw [h'.frame, h.frame]
  · rcases h'.pend with e | e <;> rcases h.pend with e' | e' <;> simp [e, e']

/-- One rendered and folded bit carries a command one unit on. -/
theorem Progress.emitBit {units : List (List Sample)} {bits : List Bool} {s u v : State} {k j : Nat}
    {b : Bool} (h : Progress units bits s k u j) (hkj : k ≤ j)
    (hu : units.drop j = bitSymbol b :: units.drop (j + 1)) (hb : bits.drop j = b :: bits.drop (j + 1))
    (ha : emitBit b u = .ran v) : Progress units bits s k v (j + 1) := by
  rcases emitBit_cases b u with ⟨w, hw, he⟩ | ⟨w, hw, he⟩ <;> rw [ha] at he <;> cases he
  have h' := append_ran h.ob_wf h.occ_le (by rw [bitSymbol_length]; cases b <;> simp) hw
  obtain ⟨cs, hcs⟩ := h.chunks
  obtain ⟨ds, hds⟩ := h'.chunks
  have hs := h.samples
  have h1 := h.sink
  have h2 := h'.sink
  refine ⟨?_, ?_, h'.ob_wf, h'.occ_le, ?_, ?_,
    ⟨cs ++ ds, by simp [hds, hcs, List.append_assoc]⟩, by simp; omega⟩
  · have : (foldBit b w).output = w.output := rfl
    rw [this, h'.output, ← hs, hu]; simp
  · rw [foldBit_crc, h'.crc, ← h.fold, hb, crcFold_cons]
  · rw [foldBit, h'.frame, h.frame]
  · rcases h'.pend with e | e <;> rcases h.pend with e' | e' <;> simp [e, e']

/-- Where an append waits: nothing has changed but the offer, which is not empty. -/
theorem append_waited {l : List Sample} {u v : State} (ha : append l u = .waits v) :
    v = u.offering ∧ u.sinkReady = 0 ∧ 1024 < u.occ + l.length := by
  rcases append_cases l u with ⟨hle, he⟩ | ⟨r, hlt, hr, he⟩ | ⟨hlt, hr, he⟩ <;>
    rw [ha] at he <;> cases he
  exact ⟨rfl, hr, hlt⟩

/-- How a command's body ends, started with `k` of its `total` units done: it runs to the end, or it
waits at a unit `j` with what is buffered on offer to a sink that is not ready. -/
def Runs (f : Flow) (units : List (List Sample)) (bits : List Bool) (s : State) (k total : Nat) :
    Prop :=
  (∃ t, f = .ran t ∧ Progress units bits s k t total) ∨
    ∃ j u, k ≤ j ∧ j < total ∧ f = .waits (u.offering.withProgress j) ∧
      Progress units bits s k u j ∧ u.sinkReady = 0 ∧ 0 < u.occ

/-- A body of several equal appends (SYM_PREAMBLE, SYM_SILENCE). -/
theorem repeatAppend_runs {l : List Sample} {n k : Nat} {s : State} (hl : l.length ≤ 1024)
    (hk : k ≤ n) (hob : s.ob.length = 1024) (hocc : s.occ ≤ 1024) :
    Runs (repeatUnits (fun _ => append l) (n - k) k s) (List.replicate n l) [] s k n := by
  rcases repeatUnits_spec (unit := fun _ => append l)
    (fun j u => k ≤ j ∧ Progress (List.replicate n l) [] s k u j) (n - k) k s
    ⟨le_refl k, Progress.refl hob hocc⟩
    (by
      rintro j u v - hj ⟨hkj, hp⟩ ha
      refine ⟨by omega, hp.append hl hkj ?_ (by simp) ha⟩
      rw [List.drop_replicate, List.drop_replicate, show n - j = n - (j + 1) + 1 by omega,
        List.replicate_succ]) with ⟨t, ht, -, hp⟩ | ⟨j, u, v, hkj, hj, ⟨-, hp⟩, hw, hr⟩
  · exact .inl ⟨t, ht, by rwa [show k + (n - k) = n by omega] at hp⟩
  · obtain ⟨rfl, hz, hlt⟩ := append_waited hw
    exact .inr ⟨j, u, hkj, by omega, hr, hp, hz, by omega⟩

/-- A body that renders and folds the bits of a list (FR_BYTE, FR_WORD, FR_CRCWORD). -/
theorem emitBitsFrom_runs {bits : List Bool} {k : Nat} {s : State} (hk : k ≤ bits.length)
    (hob : s.ob.length = 1024) (hocc : s.occ ≤ 1024) :
    Runs (emitBitsFrom bits k s) (bits.map bitSymbol) bits s k bits.length := by
  have hdrop : ∀ j, j < bits.length →
      bits.drop j = bits.getD j false :: bits.drop (j + 1) := by
    intro j hj
    rw [List.drop_eq_getElem_cons hj, List.getD_eq_getElem _ _ hj]
  rcases repeatUnits_spec (unit := fun j => Machine.emitBit (bits.getD j false))
    (fun j u => k ≤ j ∧ Progress (bits.map bitSymbol) bits s k u j) (bits.length - k) k s
    ⟨le_refl k, Progress.refl hob hocc⟩
    (by
      rintro j u v - hj ⟨hkj, hp⟩ ha
      have hd := hdrop j (by omega)
      refine ⟨by omega, hp.emitBit hkj ?_ hd ha⟩
      rw [← List.map_drop, hd, List.map_cons, List.map_drop]) with
    ⟨t, ht, -, hp⟩ | ⟨j, u, v, hkj, hj, ⟨-, hp⟩, hw, hr⟩
  · exact .inl ⟨t, ht, by rwa [show k + (bits.length - k) = bits.length by omega] at hp⟩
  · rcases emitBit_cases (bits.getD j false) u with ⟨w, hw', he⟩ | ⟨w, hw', he⟩ <;>
      rw [hw] at he <;> cases he
    obtain ⟨rfl, hz, hlt⟩ := append_waited hw'
    have : (bitSymbol (bits.getD j false)).length ≤ 24 := by
      rw [bitSymbol_length]; split <;> omega
    exact .inr ⟨j, u, hkj, by omega, hr, hp, hz, by omega⟩

theorem withProgress_same {s : State} {c : InFlight} (h : s.cur = some c) :
    s.withProgress c.done = s := by
  obtain ⟨_⟩ := s
  simp_all [State.withProgress]

/-- A body of one append (SYM_BIT, SYM_SYNC). -/
theorem append_runs {l : List Sample} {s : State} {c : InFlight} (hc : s.cur = some c)
    (hd : c.done = 0) (hl : l.length ≤ 1024) (hob : s.ob.length = 1024) (hocc : s.occ ≤ 1024) :
    Runs (append l s) [l] [] s 0 1 := by
  cases ha : append l s with
  | ran t => exact .inl ⟨t, rfl, (Progress.refl hob hocc).append hl (le_refl 0) rfl rfl ha⟩
  | waits t =>
    obtain ⟨rfl, hz, hlt⟩ := append_waited ha
    refine .inr ⟨0, s, le_refl 0, by omega, ?_, Progress.refl hob hocc, hz, by omega⟩
    rw [← hd, withProgress_same (by simpa using hc)]

/-- A body of one rendered and folded bit (FR_BIT). -/
theorem emitBit_runs {b : Bool} {s : State} {c : InFlight} (hc : s.cur = some c)
    (hd : c.done = 0) (hob : s.ob.length = 1024) (hocc : s.occ ≤ 1024) :
    Runs (emitBit b s) [bitSymbol b] [b] s 0 1 := by
  have hlen : (bitSymbol b).length ≤ 24 := by rw [bitSymbol_length]; split <;> omega
  cases ha : emitBit b s with
  | ran t => exact .inl ⟨t, rfl, (Progress.refl hob hocc).emitBit (le_refl 0) rfl rfl ha⟩
  | waits t =>
    rcases emitBit_cases b s with ⟨w, hw, he⟩ | ⟨w, hw, he⟩ <;> rw [ha] at he <;> cases he
    obtain ⟨rfl, hz, hlt⟩ := append_waited hw
    refine .inr ⟨0, s, le_refl 0, by omega, ?_, Progress.refl hob hocc, hz, by omega⟩
    rw [← hd, withProgress_same (by simpa using hc)]

/-- The body of FLUSH. -/
theorem flushBuffer_runs {s : State} {c : InFlight} (hc : s.cur = some c) (hd : c.done = 0)
    (hob : s.ob.length = 1024) (hocc : s.occ ≤ 1024) : Runs (flushBuffer s) [] [] s 0 1 := by
  rcases flushBuffer_cases s with ⟨h0, he⟩ | ⟨r, h0, hr, he⟩ | ⟨h0, hr, he⟩
  · exact .inl ⟨s, he, rfl, rfl, hob, hocc, rfl, .inl rfl, ⟨[], by simp⟩, by omega⟩
  · exact .inl ⟨_, he, by simp, rfl, hob, by simp, rfl, .inr rfl, ⟨[s.buffered], rfl⟩,
      by simp; omega⟩
  · refine .inr ⟨0, s, le_refl 0, by omega, ?_, Progress.refl hob hocc, hr, h0⟩
    rw [he, ← hd, withProgress_same (by simpa using hc)]

end Sys2Proof.Machine
end

