-- ==== Sys2Proof/Laws/Commands.lean ====
section
/-! SUPPORT. The bodies of all commands at once: what the command in flight does when it goes on, and
what a freshly accepted command does (43_control.md R192, 10_state.md R26). -/

namespace Sys2Proof.Machine

/-- The command in flight goes on from the unit that waited. -/
theorem resumeBody_runs {c : InFlight} {s : State} (hc : s.cur = some c) (hw : c.wf = true)
    (hob : s.ob.length = 1024) (hocc : s.occ ≤ 1024) :
    Runs (resumeBody c s) (appendUnits c.snapshot c.cmd) (foldedBits c.snapshot c.cmd) s c.done
      (waitPoints c.cmd) := by
  obtain ⟨cmd, k, w⟩ := c
  simp only [InFlight.wf, Bool.and_eq_true, decide_eq_true_eq] at hw
  obtain ⟨⟨-, hk⟩, -⟩ := hw
  cases cmd with
  | nop => simp [waitPoints] at hk
  | crcReset => simp [waitPoints] at hk
  | crcBit b => simp [waitPoints] at hk
  | symBit b =>
    obtain rfl : k = 0 := by simpa [waitPoints] using hk
    exact append_runs hc rfl (by rw [bitSymbol_length]; split <;> omega) hob hocc
  | symPreamble n => exact repeatAppend_runs (by simp) (le_of_lt hk) hob hocc
  | symSync =>
    obtain rfl : k = 0 := by simpa [waitPoints] using hk
    exact append_runs hc rfl (by simp) hob hocc
  | symSilence =>
    exact repeatAppend_runs (by simp) (le_of_lt hk) hob hocc
  | frBit b =>
    obtain rfl : k = 0 := by simpa [waitPoints] using hk
    exact emitBit_runs hc rfl hob hocc
  | frByte v =>
    have := emitBitsFrom_runs (bits := byteBits v) (k := k) (s := s)
      (by rw [byteBits_length]; exact le_of_lt hk) hob hocc
    rw [byteBits_length] at this
    exact this
  | frWord v =>
    have := emitBitsFrom_runs (bits := wordBits v) (k := k) (s := s)
      (by rw [wordBits_length]; exact le_of_lt hk) hob hocc
    rw [wordBits_length] at this
    exact this
  | frCrcWord =>
    have := emitBitsFrom_runs (bits := wordBits w) (k := k) (s := s)
      (by rw [wordBits_length]; exact le_of_lt hk) hob hocc
    rw [wordBits_length] at this
    exact this
  | flush =>
    obtain rfl : k = 0 := by simpa [waitPoints] using hk
    exact flushBuffer_runs hc rfl hob hocc

/-- The word FR_CRCWORD takes at its start, and nothing for every other command (42_framer.md R163). -/
def startSnapshot (s : State) (i : Instr) : Crc := if i = .frCrcWord then s.crc else 0

/-- A command's execution is what the command in flight does with none of its units done. -/
theorem exec_eq_resume (i : Instr) (s : State) :
    exec i s = .next (settle (resumeBody ⟨i, 0, startSnapshot s i⟩
      (s.accept i (startSnapshot s i)))) := by
  cases i <;> rfl

/-- SYM_PREAMBLE of no units runs at once and changes nothing (40_synthesizer.md R113). -/
theorem execSymPreamble_zero (s : State) :
    exec (.symPreamble 0) s = .next { s with cur := none, busy := false } := rfl

/-- The commands that never wait, each with its whole effect. -/
theorem exec_nop (s : State) : exec .nop s = .next { s with cur := none, busy := false } := rfl

theorem exec_crcReset (s : State) :
    exec .crcReset s = .next { s with crc := Config.crcResetVal, cur := none, busy := false } := rfl

theorem exec_crcBit (b : Bool) (s : State) :
    exec (.crcBit b) s = .next { s with crc := crcStep s.crc b, cur := none, busy := false } := rfl

/-- Only FR_CRCWORD's units and bits depend on the CRC at the start. -/
theorem appendUnits_start (s : State) (i : Instr) :
    appendUnits (startSnapshot s i) i = appendUnits s.crc i := by
  cases i <;> rfl

theorem foldedBits_start (s : State) (i : Instr) :
    foldedBits (startSnapshot s i) i = foldedBits s.crc i := by
  cases i <;> rfl

end Sys2Proof.Machine
end

