-- ==== Sys2Proof/Laws/PerInstr.lean ====
section
/-! SUPPORT. Statements about every command, made command by command: each command's encoding matches
its row of spec/opcode_table.json. -/

namespace Sys2Proof.Laws

/-- The `mask` of a command's row in spec/opcode_table.json. -/
def rowMask : Instr → Word
  | .nop => 0xFFFFFFFF#32
  | .symBit _ => 0xFFFFFFFE#32
  | .symPreamble _ => 0xFF000000#32
  | .symSync => 0xFFFFFFFF#32
  | .symSilence => 0xFFFFFFFF#32
  | .crcReset => 0xFFFFFFFF#32
  | .crcBit _ => 0xFFFFFFFE#32
  | .frBit _ => 0xFFFFFFFE#32
  | .frByte _ => 0xFFFFFF00#32
  | .frWord _ => 0xFFFF0000#32
  | .frCrcWord => 0xFFFFFFFF#32
  | .flush => 0xFFFFFFFF#32

/-- The `match` of a command's row in spec/opcode_table.json. -/
def rowMatch : Instr → Word
  | .nop => 0x00000000#32
  | .symBit _ => 0x10000000#32
  | .symPreamble _ => 0x20000000#32
  | .symSync => 0x30000000#32
  | .symSilence => 0x40000000#32
  | .crcReset => 0x50000000#32
  | .crcBit _ => 0x60000000#32
  | .frBit _ => 0x70000000#32
  | .frByte _ => 0x80000000#32
  | .frWord _ => 0x90000000#32
  | .frCrcWord => 0xA0000000#32
  | .flush => 0xB0000000#32

/-- The command's word matches its own row of the opcode table. -/
def MatchesRow.Statement (i : Instr) : Prop := encode i &&& rowMask i = rowMatch i

theorem MatchesRow.nop : MatchesRow.Statement .nop := by unfold MatchesRow.Statement; decide

theorem MatchesRow.symBit (b : Bool) : MatchesRow.Statement (.symBit b) := by
  unfold MatchesRow.Statement; revert b; decide

theorem MatchesRow.symPreamble (n : Nat) : MatchesRow.Statement (.symPreamble n) := by
  simp only [MatchesRow.Statement, encode, rowMask, rowMatch]
  ext j hj
  simp only [BitVec.getElem_and, BitVec.getElem_append]
  interval_cases j <;> simp

theorem MatchesRow.symSync : MatchesRow.Statement .symSync := by
  unfold MatchesRow.Statement; decide

theorem MatchesRow.symSilence : MatchesRow.Statement .symSilence := by
  unfold MatchesRow.Statement; decide

theorem MatchesRow.crcReset : MatchesRow.Statement .crcReset := by
  unfold MatchesRow.Statement; decide

theorem MatchesRow.crcBit (b : Bool) : MatchesRow.Statement (.crcBit b) := by
  unfold MatchesRow.Statement; revert b; decide

theorem MatchesRow.frBit (b : Bool) : MatchesRow.Statement (.frBit b) := by
  unfold MatchesRow.Statement; revert b; decide

theorem MatchesRow.frByte (v : BitVec 8) : MatchesRow.Statement (.frByte v) := by
  simp only [MatchesRow.Statement, encode, rowMask, rowMatch]
  ext j hj
  simp only [BitVec.getElem_and, BitVec.getElem_append]
  interval_cases j <;> simp

theorem MatchesRow.frWord (v : BitVec 16) : MatchesRow.Statement (.frWord v) := by
  simp only [MatchesRow.Statement, encode, rowMask, rowMatch]
  ext j hj
  simp only [BitVec.getElem_and, BitVec.getElem_append]
  interval_cases j <;> simp

theorem MatchesRow.frCrcWord : MatchesRow.Statement .frCrcWord := by
  unfold MatchesRow.Statement; decide

theorem MatchesRow.flush : MatchesRow.Statement .flush := by unfold MatchesRow.Statement; decide

end Sys2Proof.Laws
end

