-- ==== Sys2Proof/Laws/Step.lean ====
section
/-! SUPPORT. What a step and a host access are, agent by agent and register by register, so that no later
proof unfolds step, hostTurn or access (43_control.md R192 to R194). -/

namespace Sys2Proof.Machine

/-- `s` with its first turn taken off. -/
def State.turnTaken (s : State) : State := { s with turns := s.turns.tail }

/-- With no turn left nobody acts. -/
theorem step_nil {s : State} (h : s.turns = []) : step s = .next s := by simp [step, h]

/-- A step is the move of the agent whose turn it is. -/
theorem step_cons {s : State} {t : Turn} {rest : List Turn} (h : s.turns = t :: rest) :
    step s = takeTurn t { s with turns := rest } := by simp [step, h]

theorem step_host {s : State} {rest : List Turn} (h : s.turns = .host :: rest) :
    step s = hostTurn { s with turns := rest } := step_cons h

theorem step_sink {s : State} {rest : List Turn} (h : s.turns = .sink :: rest) :
    step s = .next (sinkTurn { s with turns := rest }) := step_cons h

theorem step_rstAssert {s : State} {rest : List Turn} (h : s.turns = .rstAssert :: rest) :
    step s = .next (assertReset { s with turns := rest }) := step_cons h

theorem step_rstAssertWithWrite {s : State} {rest : List Turn}
    (h : s.turns = .rstAssertWithWrite :: rest) :
    step s = assertResetWithWrite { s with turns := rest } := step_cons h

theorem step_rstRelease {s : State} {rest : List Turn} (h : s.turns = .rstRelease :: rest) :
    step s = .next (releaseReset { s with turns := rest }) := step_cons h

/-- A run of no steps. -/
theorem run_zero (s : State) : Host.Core.run Sys2Proof.core 0 s = .next s := rfl

/-- A longer run of any machine, when its first step goes on. -/
theorem anyRun_succ (M : Host.Core) (k : Nat) {s t : M.State} (h : M.step s = .next t) :
    M.run (k + 1) s = M.run k t := by
  rw [Host.Core.run.eq_2, h]

/-- A run of any machine that ends in a next state begins with a step that does. -/
theorem anyRun_succ_next (M : Host.Core) {k : Nat} {s t : M.State} (h : M.run (k + 1) s = .next t) :
    ∃ u, M.step s = .next u ∧ M.run k u = .next t := by
  rw [Host.Core.run.eq_2] at h
  split at h
  · exact ⟨_, by assumption, h⟩
  · cases h
  · cases h

/-- A run of one step and more. -/
theorem run_succ {s t : State} (k : Nat) (h : step s = .next t) :
    Host.Core.run Sys2Proof.core (k + 1) s = Host.Core.run Sys2Proof.core k t :=
  anyRun_succ Sys2Proof.core k h

/-- A run that ends in a next state begins with a step that does. -/
theorem run_succ_next {s t : State} {k : Nat}
    (h : Host.Core.run Sys2Proof.core (k + 1) s = .next t) :
    ∃ u, step s = .next u ∧ Host.Core.run Sys2Proof.core k u = .next t :=
  anyRun_succ_next Sys2Proof.core h

/-- The four registers' writes. -/
theorem access_write_cmd (w : Word) (s : State) : access (.write 32 0x00 w) s = writeCmd w s := rfl

theorem access_write_status (v : Word) (s : State) : access (.write 32 0x04 v) s = .next s := rfl

theorem access_write_crcr (v : Word) (s : State) : access (.write 32 0x08 v) s = .next s := rfl

theorem access_write_ctrl (v : Word) (s : State) :
    access (.write 32 0x0C v) s = .next (writeCtrl v s) := rfl

/-- The four registers' reads. -/
theorem access_read_cmd (s : State) : access (.read 32 0x00) s = .next (s.answer 0#32) := rfl

theorem access_read_status (s : State) : access (.read 32 0x04) s = .next (readStatus s) := rfl

theorem access_read_crcr (s : State) : access (.read 32 0x08) s = .next (readCrcr s) := rfl

theorem access_read_ctrl (s : State) : access (.read 32 0x0C) s = .next (s.answer 0#32) := rfl

/-- Every access that is not refused is one of the eight. -/
theorem access_cases {a : Access} {s t : State} (h : access a s = .next t) :
    (∃ r, t = regRead r s) ∨ (∃ r v, regWrite r v s = .next t) := by
  cases a with
  | read width offset =>
    simp only [access] at h
    split at h
    · rename_i r hr
      exact .inl ⟨r, by cases h; rfl⟩
    · cases h
  | write width offset v =>
    simp only [access] at h
    split at h
    · rename_i r hr
      exact .inr ⟨r, v, h⟩
    · cases h

/-- A read changes the host's answers and the draws, and nothing else. -/
theorem regRead_frame (r : Register) (s : State) :
    ∃ v d, regRead r s = { s with reads := s.reads ++ [v], draws := d } := by
  cases r with
  | cmd => exact ⟨0#32, s.draws, rfl⟩
  | ctrl => exact ⟨0#32, s.draws, rfl⟩
  | status =>
    simp only [regRead, readStatus]
    split
    · exact ⟨_, s.draws + 1, rfl⟩
    · exact ⟨_, s.draws, rfl⟩
  | crcr =>
    simp only [regRead, readCrcr]
    split
    · exact ⟨_, s.draws + 1, rfl⟩
    · exact ⟨_, s.draws, rfl⟩

/-- What becomes of a command word once BUSY is 0 (R192). -/
theorem onCmdWrite_cases (w : Word) (s : State) :
    (s.err = true ∧ onCmdWrite w s = .next { s with cmdIndex := s.cmdIndex + 1 }) ∨
      (s.err = false ∧ ∃ e, decode w = .error e ∧
        onCmdWrite w s = .next (raiseCmdError e { s with cmdIndex := s.cmdIndex + 1 })) ∨
      (s.err = false ∧ ∃ i, decode w = .ok i ∧
        onCmdWrite w s = exec i { s with cmdIndex := s.cmdIndex + 1 }) := by
  cases he : s.err with
  | true => exact .inl ⟨rfl, by simp [onCmdWrite, he]⟩
  | false =>
    cases hd : decode w with
    | error e => exact .inr (.inl ⟨rfl, e, rfl, by simp [onCmdWrite, he, hd]⟩)
    | ok i => exact .inr (.inr ⟨rfl, i, rfl, by simp [onCmdWrite, he, hd]⟩)

end Sys2Proof.Machine
end

