-- ==== Sys2Proof/Tests/Slice0.lean ====
section
/-! SUPPORT. Tests on the spec's own vectors (spec/95_test_vectors.md), the smoke test of WellFormed, and
for every obligation with hypotheses a witness: concrete values that meet them. -/

namespace Sys2Proof.Tests

open Sys2Proof.Machine

/-! ### States for the tests -/

/-- The reset state with `occ` samples buffered and a sink that takes `ready` chunks at once; every cell
of the buffer holds 0x00AA. -/
def idle (occ ready : Nat) : State :=
  { State.reset with ob := List.replicate 1024 0x00AA#16, occ := occ, sinkReady := ready }

/-- SYM_BIT 0 with 1001 samples buffered and no ready sink: the block waits with the chunk on offer. -/
def waiting : State :=
  { idle 1001 0 with busy := true, cur := some ⟨.symBit false, 0, 0⟩,
                     pend := some ((List.replicate 1024 0x00AA#16).take 1001) }

/-- A state after the word 0xC0000000 (V-ERR-1). -/
def failed : State := { idle 34 0 with crc := 0xB555#16, err := true, errCode := 1 }

/-- RST asserted. -/
def inReset : State := { idle 0 0 with rst := true }

/-- What the vectors list of a next state: CRC, OCC, the lengths of the delivered chunks, BUSY. -/
def summary : Host.Outcome State Fault Refusal → Option (Crc × Nat × List Nat × Bool)
  | .next t => some (t.crc, t.occ, t.delivered.map List.length, t.busy)
  | .fault _ => none
  | .refused _ => none

/-- The error flags of a next state, and the host's reads. -/
def status : Host.Outcome State Fault Refusal → Option (Bool × BitVec 4 × List Word)
  | .next t => some (t.err, t.errCode, t.reads)
  | .fault _ => none
  | .refused _ => none

/-- The buffered samples of a next state. -/
def content : Host.Outcome State Fault Refusal → List Sample
  | .next t => t.buffered
  | .fault _ => []
  | .refused _ => []

/-! ### WellFormed, Decode, Encode -/

theorem test_wellFormed_count_too_big : (Instr.symPreamble 16777216).wellFormed = false := by decide

theorem test_wellFormed_count_biggest : (Instr.symPreamble 16777215).wellFormed = true := by decide

/-- V-DEC-1, V-DEC-23. -/
theorem test_decode_control :
    decode 0b00000000000000000000000000000000#32 = .ok .nop ∧
    decode 0b10110000000000000000000000000000#32 = .ok .flush := ⟨rfl, rfl⟩

/-- V-DEC-3, V-DEC-4, V-DEC-7, V-DEC-9, V-DEC-11, V-DEC-13. -/
theorem test_decode_synthesizer :
    decode 0b00010000000000000000000000000000#32 = .ok (.symBit false) ∧
    decode 0b00010000000000000000000000000001#32 = .ok (.symBit true) ∧
    decode 0b00100000000000000010100000000000#32 = .ok (.symPreamble 10240) ∧
    decode 0b00100000111111111111111111111111#32 = .ok (.symPreamble 16777215) ∧
    decode 0b00110000000000000000000000000000#32 = .ok .symSync ∧
    decode 0b01000000000000000000000000000000#32 = .ok .symSilence := ⟨rfl, rfl, rfl, rfl, rfl, rfl⟩

/-- V-DEC-14, V-DEC-15. -/
theorem test_decode_crc :
    decode 0b01010000000000000000000000000000#32 = .ok .crcReset ∧
    decode 0b01100000000000000000000000000001#32 = .ok (.crcBit true) := ⟨rfl, rfl⟩

/-- V-DEC-16, V-DEC-17, V-DEC-19, V-DEC-21; a byte and a word with no symmetry. -/
theorem test_decode_framer :
    decode 0b01110000000000000000000000000000#32 = .ok (.frBit false) ∧
    decode 0b10000000000000000000000001101010#32 = .ok (.frByte 0x6A#8) ∧
    decode 0b10010000000000001111111111111111#32 = .ok (.frWord 0xFFFF#16) ∧
    decode 0b10010000000000000001001000110100#32 = .ok (.frWord 0x1234#16) ∧
    decode 0b10100000000000000000000000000000#32 = .ok .frCrcWord := ⟨rfl, rfl, rfl, rfl, rfl⟩

/-- V-DEC-2, 5, 10, 12, 18, 20, 22 (code 2) and V-DEC-24 to 27 (code 1). -/
theorem test_decode_rejects :
    decode 0x00000001#32 = .error .reservedField ∧ decode 0x10000002#32 = .error .reservedField ∧
    decode 0x21000000#32 = .error .reservedField ∧ decode 0x38000000#32 = .error .reservedField ∧
    decode 0x80000100#32 = .error .reservedField ∧ decode 0x90010000#32 = .error .reservedField ∧
    decode 0xA0000001#32 = .error .reservedField ∧ decode 0xC0000000#32 = .error .illegalOpcode ∧
    decode 0xCFFFFFFF#32 = .error .illegalOpcode ∧ decode 0xFFFFFFFF#32 = .error .illegalOpcode ∧
    decode 0xD0000000#32 = .error .illegalOpcode ∧ decode 0xE0000000#32 = .error .illegalOpcode ∧
    decode 0xF0000000#32 = .error .illegalOpcode :=
  ⟨rfl, rfl, rfl, rfl, rfl, rfl, rfl, rfl, rfl, rfl, rfl, rfl, rfl⟩

/-- The words of programs P1, P2 and P5. -/
theorem test_encode :
    encode .crcReset = 0x50000000#32 ∧ encode (.frByte 0x6A#8) = 0x8000006A#32 ∧
    encode .flush = 0xB0000000#32 ∧ encode (.symPreamble 60) = 0x2000003C#32 ∧
    encode (.frWord 0x1234#16) = 0x90001234#32 := ⟨rfl, rfl, rfl, rfl, rfl⟩

/-- The decoder reads a table row's bits as one 32-bit word. -/
theorem test_decodeTableWord : decodeTableWord 32 0x8000006A = some (.frByte 0x6A#8) := rfl

/-! ### The CRC -/

/-- V-CRC-2, 5, 6, 8, 11, 16b. -/
theorem test_crcStep :
    crcStep 0x0000#16 true = 0x2041#16 ∧ crcStep 0xFFFF#16 false = 0xDFBD#16 ∧
    crcStep 0xFFFF#16 true = 0xFFFC#16 ∧ crcStep 0x1234#16 true = 0x6891#16 ∧
    crcStep 0x4000#16 false = 0x0000#16 ∧ crcStep 0x2041#16 true = 0xA145#16 := by decide

/-- V-CRC-21, 24, 29, and the shift 1 values of 0x01 and 0x6A. -/
theorem test_crcFold :
    crcFold 0x0000#16 (byteBits 0x01#8) = 0xD544#16 ∧
    crcFold 0x0000#16 (byteBits 0x6A#8) = 0xB555#16 ∧
    crcFold 0x0000#16 (wordBits 0x1234#16) = 0x9144#16 ∧
    (byteBits 0x01#8).foldl (crcStepWith 1) 0x0000#16 = 0x9188#16 ∧
    (byteBits 0x6A#8).foldl (crcStepWith 1) 0x0000#16 = 0x3A33#16 := by decide +kernel

/-- A byte 0x00 from a register that whole bytes did not leave gives a fifth value (log 10). -/
theorem test_fold_of_zero_byte_from_0x0800 :
    crcFold 0x0800#16 (byteBits 0x00#8) ∉ [0x0000#16, 0xD544#16, 0x7551#16, 0xA015#16] := by decide

/-- R146(d), V-CRC-18: 0x5040 drains in five folds of bit 0 and not in four. -/
theorem test_zeros_drain_0x5040 :
    crcFold 0x5040#16 (List.replicate 5 false) = 0x0000#16 ∧
    crcFold 0x5040#16 (List.replicate 4 false) ≠ 0x0000#16 ∧
    crcFold 0x5040#16 (byteBits 0x00#8) = 0x0000#16 := by decide +kernel

/-- R146(d): fourteen independent start values drain within 14 folds of bit 0; as the update is linear
(R145), so do the 2 ^ 14 = 16384 values they span. -/
theorem test_zeros_drain_fourteen :
    ∀ s ∈ [0x0001#16, 0x0004#16, 0x0010#16, 0x0040#16, 0x0100#16, 0x0400#16, 0x1000#16, 0x4000#16,
        0x0022#16, 0x0202#16, 0x2002#16, 0x0088#16, 0x0808#16, 0x8008#16],
      crcFold s (List.replicate 14 false) = 0x0000#16 := by
  simp [crcFold, crcStep, crcStepWith, crcCarry, Config.crcShift, Config.crcFeedback,
    List.replicate]

/-- R146(d), V-CRC-19: the values that complete those fourteen to a basis, and their sum, come to a cycle
of at most two non-zero values, so they and all values that differ from them by one that drains never
reach 0. -/
theorem test_zeros_never_drain_the_others :
    ∀ s ∈ [0x0002#16, 0x0008#16, 0x000A#16],
      crcFold s (List.replicate 14 false) ∈ [0xD544#16, 0x7551#16, 0xA015#16] ∧
      crcFold s (List.replicate 16 false) = crcFold s (List.replicate 14 false) := by
  simp [crcFold, crcStep, crcStepWith, crcCarry, Config.crcShift, Config.crcFeedback,
    List.replicate]

/-- R146(e): the carries of V-CRC-24's trace, folds 1, 5, 6 and 7, give its value; and only the empty
pattern gives 0, so that the 256 patterns give 256 values (R145). -/
theorem test_carrySpan :
    carrySpan 0b11100010#8 = 0xB555#16 ∧
    (List.range 256).countP (fun c => carrySpan (BitVec.ofNat 8 c) == 0x0000#16) = 1 := by
  decide +kernel

/-- R146(f): from each of the four registers a whole byte can leave in bits 15 and 13 (0x0000, 0x2041,
0x8104, 0xA145), a byte 0x00 leaves a value of its own among the four. -/
theorem test_zero_byte_leaves_exactly_four :
    [0x0000#16, 0x2041#16, 0x8104#16, 0xA145#16].map (fun s => crcFold s (byteBits 0x00#8)) =
      [0x0000#16, 0x7551#16, 0xD544#16, 0xA015#16] := by decide +kernel

/-- R146(g), V-CRC-17: a reset before byte 0x02 shows from 0x8000 and does not from 0x1440. -/
theorem test_reset_seen_through_bits_15_and_13 :
    crcFold 0x8000#16 (byteBits 0x02#8) = 0xA015#16 ∧
    crcFold 0x0000#16 (byteBits 0x02#8) = 0x7551#16 ∧
    crcFold 0x1440#16 (byteBits 0x02#8) = 0x7551#16 := by decide +kernel

/-- R142. -/
theorem test_crcReset :
    summary (exec .crcReset { idle 5 0 with crc := 0xB555#16 }) = some (0, 5, [], false) := by decide +kernel

/-- V-FR-3. -/
theorem test_crcBit : summary (exec (.crcBit true) (idle 0 0)) = some (0x2041, 0, [], false) := rfl

/-! ### The synthesizer -/

/-- V-SYN-4: the full buffer is delivered first. -/
theorem test_symBit_overflow :
    summary (exec (.symBit false) (idle 1001 1)) = some (0, 24, [1001], false) := by decide +kernel

/-- V-SYN-3, V-SYN-7: exactly filling, and a shorter symbol, deliver nothing. -/
theorem test_symBit_fills :
    summary (exec (.symBit false) (idle 1000 1)) = some (0, 1024, [], false) ∧
    summary (exec (.symBit true) (idle 1001 1)) = some (0, 1017, [], false) := by decide +kernel

/-- V-SYN-14, V-SYN-15, and four units from 970 samples, of which three fit. -/
theorem test_symPreamble_chunk :
    summary (exec (.symPreamble 1) (idle 1006 1)) = some (0, 1024, [], false) ∧
    summary (exec (.symPreamble 1) (idle 1007 1)) = some (0, 18, [1007], false) ∧
    summary (exec (.symPreamble 4) (idle 970 1)) = some (0, 18, [1024], false) := by decide +kernel

/-- V-SYN-8. -/
theorem test_symPreamble_none : exec (.symPreamble 0) (idle 0 1) = .next (idle 0 1) := rfl

/-- V-SYN-17. -/
theorem test_symSync_overflow :
    summary (exec .symSync (idle 991 1)) = some (0, 34, [991], false) := by decide +kernel

/-- V-SYN-16. -/
theorem test_symSync_fills :
    summary (exec .symSync (idle 990 1)) = some (0, 1024, [], false) := by decide +kernel

/-- R26, R57: one sample a time; with no ready sink the block waits with the buffer full. -/
theorem test_symSilence_waits :
    summary (exec .symSilence (idle 1020 0)) = some (0, 1024, [], true) := by decide +kernel

/-! ### The framer -/

/-- V-FR-1: the bit's symbol and one fold. -/
theorem test_frBit :
    summary (exec (.frBit true) (idle 0 0)) = some (0x2041, 16, [], false) ∧
    content (exec (.frBit true) (idle 0 0)) =
      List.replicate 8 Config.pPos ++ List.replicate 8 Config.pNeg := ⟨rfl, rfl⟩

/-- V-FR-5: the stream is BIT0 BIT1 BIT0 BIT1 BIT0 BIT1 BIT1 BIT0. -/
theorem test_frByte :
    summary (exec (.frByte 0x6A#8) (idle 0 0)) = some (0xB555, 160, [], false) ∧
    content (exec (.frByte 0x6A#8) (idle 0 0)) =
      symbolBit0 ++ symbolBit1 ++ symbolBit0 ++ symbolBit1 ++ symbolBit0 ++ symbolBit1 ++
        symbolBit1 ++ symbolBit0 := by
  refine ⟨by decide +kernel, ?_⟩
  set_option maxRecDepth 4000 in rfl

/-- V-FR-8. -/
theorem test_frWord :
    summary (exec (.frWord 0x1234#16) (idle 0 0)) = some (0x9144, 344, [], false) := by decide +kernel

/-- V-FR-11 after its first line: the emitted word is the CRC at the start, 0x2041. -/
theorem test_frCrcWord :
    summary (exec .frCrcWord { idle 16 0 with crc := 0x2041#16 }) =
      some (0x5100, 376, [], false) := by decide +kernel

/-! ### Control, registers, errors, reset -/

/-- V-CTL-1. -/
theorem test_nop : exec .nop (idle 7 0) = .next (idle 7 0) := rfl

/-- V-CTL-2, V-CTL-3, V-CTL-4. -/
theorem test_flush :
    summary (exec .flush (idle 0 1)) = some (0, 0, [], false) ∧
    summary (exec .flush (idle 72 1)) = some (0, 0, [72], false) ∧
    summary (exec .flush (idle 1024 1)) = some (0, 0, [1024], false) := by decide +kernel

/-- V-CTL-5, V-CTL-6: the register words after V-FR-5. -/
theorem test_reads :
    status (access (.read 32 0x04) { idle 160 0 with crc := 0xB555#16 }) =
      some (false, 0, [0x00A00000#32]) ∧
    status (access (.read 32 0x08) { idle 160 0 with crc := 0xB555#16 }) =
      some (false, 0, [0x0000B555#32]) := by decide +kernel

/-- V-CTL-8: STATUS and CRCR ignore writes. -/
theorem test_ignored_writes :
    access (.write 32 0x04 0x12345678#32) (idle 160 0) = .next (idle 160 0) ∧
    access (.write 32 0x08 0x12345678#32) (idle 160 0) = .next (idle 160 0) := ⟨rfl, rfl⟩

/-- V-CTL-10: a soft reset. -/
theorem test_softReset :
    summary (access (.write 32 0x0C 0x00000001#32) { idle 160 0 with crc := 0xB555#16 }) =
      some (0, 0, [], false) := rfl

/-- V-ERR-1, V-ERR-2, V-ERR-6: the two codes, and the opcode check first. -/
theorem test_errors :
    status (onCmdWrite 0xC0000000#32 (idle 0 0)) = some (true, 1, []) ∧
    status (onCmdWrite 0x80000100#32 (idle 0 0)) = some (true, 2, []) ∧
    status (onCmdWrite 0xCFFFFFFF#32 (idle 34 0)) = some (true, 1, []) := ⟨rfl, rfl, rfl⟩

/-- V-ERR-1's STATUS word, and V-ERR-3: a command is ignored after an error. -/
theorem test_failed :
    status (access (.read 32 0x04) { failed with occ := 0 }) = some (true, 1, [0x00000012#32]) ∧
    summary (onCmdWrite 0x8000006A#32 failed) = some (0xB555, 34, [], false) := ⟨rfl, rfl⟩

/-- R57, R192: the sink takes the offered chunk and the waiting symbol follows. -/
theorem test_sinkTurn : summary (.next (sinkTurn waiting)) = some (0, 24, [1001], false) := by
  decide +kernel

/-- V-RST-2: the reset value of the CRC needs no CRC_RESET; run as the machine's first command. -/
theorem test_first_command :
    summary (step (State.reset.withFetchWord 32 0x8000006A)) = some (0xB555, 160, [], false) := rfl

/-- V-RST-1. -/
theorem test_release : summary (step { inReset with turns := [.rstRelease] }) =
    some (0, 0, [], false) := rfl

/-! ### The assembler -/

/-- Program P1 as text. -/
theorem test_assemble_text :
    assemble "crc.reset\nfr.byte 0x6a ; sync\nflush\n".toList =
      .ok [0x50000000#32, 0x8000006A#32, 0xB0000000#32] := rfl

/-- Example E5 (R90): the length byte, then the bytes; and the refusal of eleven. -/
theorem test_assemble_string :
    assemble "fr.string \"HI\"".toList = .ok [0x80000002#32, 0x80000048#32, 0x80000049#32] ∧
    assemble "fr.string \"ABCDEFGHIJK\"".toList = .error .filenameOverflow := ⟨rfl, rfl⟩

/-- R88: an operand out of range is refused; R89: a character is its byte. -/
theorem test_assemble_operands :
    assemble "fr.byte 256".toList = .error .operandOutOfRange ∧
    assemble "fr.byte 'A'".toList = .ok [0x80000041#32] := ⟨rfl, rfl⟩

/-! ### Witnesses: values that meet the hypotheses of each obligation -/

theorem idle_inv {occ ready : Nat} (h : occ ≤ 1024) : (idle occ ready).Inv where
  occ_le_cap := h
  no_err_no_code := fun _ => rfl
  err_code_legal := nofun
  busy_no_err := nofun
  idle_nothing_in_flight := fun _ => ⟨rfl, rfl⟩
  pend_size := nofun
  ob_wf := List.length_replicate
  busy_in_flight := nofun
  busy_offers := nofun
  in_reset := nofun

theorem waiting_inv : waiting.Inv where
  occ_le_cap := by decide
  no_err_no_code := fun _ => rfl
  err_code_legal := nofun
  busy_no_err := fun _ => rfl
  idle_nothing_in_flight := nofun
  pend_size := fun c h => by
    obtain rfl : (List.replicate 1024 0x00AA#16).take 1001 = c := Option.some.inj h
    rw [List.length_take, List.length_replicate]
    decide
  ob_wf := List.length_replicate
  busy_in_flight := fun _ => ⟨_, rfl, rfl⟩
  busy_offers := fun _ => rfl
  in_reset := nofun

theorem failed_inv : failed.Inv where
  occ_le_cap := by decide
  no_err_no_code := nofun
  err_code_legal := fun _ => .inl rfl
  busy_no_err := nofun
  idle_nothing_in_flight := fun _ => ⟨rfl, rfl⟩
  pend_size := nofun
  ob_wf := List.length_replicate
  busy_in_flight := nofun
  busy_offers := nofun
  in_reset := nofun

/-- The invariant says nothing of the agents: it holds with any turns and accesses. -/
theorem inv_with_agents {s : State} (h : s.Inv) (turns : List Turn) (host : List Access) :
    { s with turns := turns, host := host }.Inv where
  occ_le_cap := h.occ_le_cap
  no_err_no_code := h.no_err_no_code
  err_code_legal := h.err_code_legal
  busy_no_err := h.busy_no_err
  idle_nothing_in_flight := h.idle_nothing_in_flight
  pend_size := h.pend_size
  ob_wf := h.ob_wf
  busy_in_flight := h.busy_in_flight
  busy_offers := h.busy_offers
  in_reset := h.in_reset

/-- The host writes FR_BYTE 0x6A in an idle state. -/
def writing : State := { idle 0 0 with turns := [.host], host := [.write 32 0x00 0x8000006A#32] }

/-- The waiting state with the sink to move. -/
def accepting : State := { waiting with turns := [.sink] }

theorem writing_inv : writing.Inv :=
  inv_with_agents (s := idle 0 0) (idle_inv (by decide)) _ _

theorem accepting_inv : accepting.Inv := inv_with_agents waiting_inv _ _

theorem witness_DecodeOfEncodeIsTheCommand :
    (Instr.symPreamble 16777215).wellFormed = true ∧ (Instr.frWord 0xFFFF#16).wellFormed = true := by
  decide

theorem witness_AcceptedWordIsItsCommandsEncoding :
    decode 0x20FFFFFF#32 = .ok (.symPreamble 16777215) ∧ decode 0x10000001#32 = .ok (.symBit true) :=
  ⟨rfl, rfl⟩

theorem witness_ReservedOpcodeIsRejected :
    0xC ≤ (0xC0000000#32).toNat / 2 ^ 28 ∧ 0xC ≤ (0xFFFFFFFF#32).toNat / 2 ^ 28 ∧
    (idle 0 0).err = false := by decide

theorem witness_ReservedFieldIsRejected :
    (opcodeFormat ((0x08000000#32).toNat / 2 ^ 28) = some .A ∧ 0x08000000#32 &&& reservedMask .A ≠ 0#32) ∧
    (opcodeFormat ((0x10000002#32).toNat / 2 ^ 28) = some .B ∧ 0x10000002#32 &&& reservedMask .B ≠ 0#32) ∧
    (opcodeFormat ((0x80000100#32).toNat / 2 ^ 28) = some .C ∧ 0x80000100#32 &&& reservedMask .C ≠ 0#32) ∧
    (opcodeFormat ((0x90010000#32).toNat / 2 ^ 28) = some .W ∧ 0x90010000#32 &&& reservedMask .W ≠ 0#32) ∧
    (opcodeFormat ((0x21000000#32).toNat / 2 ^ 28) = some .N ∧ 0x21000000#32 &&& reservedMask .N ≠ 0#32) ∧
    (idle 0 0).err = false := by decide

theorem witness_HardwareResetAbandonsAndRestores :
    { waiting with turns := [.rstAssert] }.turns = .rstAssert :: [] ∧
    (let s := { inReset with turns := [.host], host := [.read 32 0x04] }
     s.turns = .host :: [] ∧ s.rst = true ∧ s.held = none ∧ s.host = .read 32 0x04 :: []) ∧
    (let s := { inReset with turns := [.rstRelease] }
     s.turns = .rstRelease :: [] ∧ s.rst = true) := by decide

theorem witness_SoftResetAbandonsAndRestores :
    (0x00000001#32).getLsbD 0 = true ∧ (0xFFFFFFFF#32).getLsbD 0 = true := by decide

theorem witness_CtrlWriteOneResetsWriteZeroDoesNothing :
    (0xFFFFFFFE#32).getLsbD 0 = false ∧ (0x00000001#32).getLsbD 0 = true ∧
    (idle 160 0).Inv ∧ (idle 160 0).busy = false ∧ (idle 160 0).err = false :=
  ⟨by decide, by decide, idle_inv (by decide), rfl, rfl⟩

theorem witness_ResetWinsOverACommandWrite :
    let s := { idle 160 0 with turns := [.rstAssertWithWrite], host := [.write 32 0x00 0x8000006A#32] }
    s.turns = .rstAssertWithWrite :: [] ∧ s.rst = false ∧ s.held = none ∧
      s.host = .write 32 0x00 0x8000006A#32 :: [] := ⟨rfl, rfl, rfl, rfl⟩

theorem witness_EveryStepKeepsTheInvariant :
    (writing.Inv ∧ ∃ t, step writing = .next t) ∧ (accepting.Inv ∧ ∃ t, step accepting = .next t) :=
  ⟨⟨writing_inv, _, rfl⟩, accepting_inv, _, rfl⟩

theorem witness_StatusInvariantInEveryReachableState :
    ∃ t, Host.Core.run Sys2Proof.core 1
      { State.reset with host := [.write 32 0x00 0x50000000#32], turns := [.host] } = .next t :=
  ⟨_, rfl⟩

theorem witness_DecodedCommandRunsAtItsStep :
    (writing.turns = .host :: [] ∧ writing.rst = false ∧ writing.busy = false ∧ writing.err = false ∧
      decode 0x8000006A#32 = .ok (.frByte 0x6A#8) ∧ writing.held = none ∧
      writing.host = .write 32 0x00 0x8000006A#32 :: []) ∧
    { writing with held := some 0x8000006A#32 }.held = some 0x8000006A#32 :=
  ⟨⟨rfl, rfl, rfl, rfl, rfl, rfl, rfl⟩, rfl⟩

theorem witness_PlacedCommandRunsAtTheNextStep :
    State.reset.rst = false ∧ State.reset.busy = false ∧ State.reset.err = false ∧
    decodeTableWord 32 0x8000006A = some (.frByte 0x6A#8) := ⟨rfl, rfl, rfl, rfl⟩

theorem witness_CommandWordLifecycle :
    waiting.busy = true ∧ (failed.busy = false ∧ failed.err = true) ∧
    ((idle 0 0).busy = false ∧ (idle 0 0).err = false ∧
      decode 0xC0000000#32 = .error .illegalOpcode ∧ decode 0x8000006A#32 = .ok (.frByte 0x6A#8)) ∧
    (idle 1001 0).Inv := ⟨rfl, ⟨rfl, rfl⟩, ⟨rfl, rfl, rfl, rfl⟩, idle_inv (by decide)⟩

theorem witness_OnlyResetStopsACommandEarly :
    accepting.Inv ∧ accepting.busy = true ∧ accepting.turns = .sink :: [] ∧
    ∃ t, step accepting = .next t ∧ t.busy = false :=
  ⟨accepting_inv, rfl, rfl, _, rfl, by decide +kernel⟩

/-- A resetting move that ends a command in flight: the host's write of CTRL in the waiting state. -/
theorem witness_ResetMove :
    let s := { waiting with turns := [.host], host := [.write 32 0x0C 0x00000001#32] }
    s.Inv ∧ s.busy = true ∧ s.ResetMove ∧ ∃ t, step s = .next t ∧ t.busy = false :=
  ⟨inv_with_agents waiting_inv _ _, rfl, .ctrlWritten [] _ [] rfl rfl rfl (by decide), _, rfl, rfl⟩

theorem witness_RegisterWriteEffects :
    let s := { waiting with turns := [.host], held := some 0x50000000#32 }
    s.turns = .host :: [] ∧ s.rst = false ∧ s.busy = true ∧ s.held = some 0x50000000#32 :=
  ⟨rfl, rfl, rfl, rfl⟩

theorem witness_HeldWriteBlocksTheHost :
    let s := { waiting with turns := [.host, .host, .sink], held := some 0x50000000#32 }
    (s.turns = List.replicate 2 .host ++ [.sink] ∧ s.rst = false ∧ s.busy = true ∧
      s.held = some 0x50000000#32) ∧
    { s with turns := [.rstAssert] }.turns = .rstAssert :: [] :=
  ⟨⟨rfl, rfl, rfl, rfl⟩, rfl⟩

theorem witness_RegisterReadValues :
    (idle 1024 0).busy = false ∧ (idle 1024 0).occ ≤ 1024 ∧ waiting.busy = true :=
  ⟨rfl, by decide, rfl⟩

theorem witness_OnlyAlignedWordAccessesAreDefined :
    (32 = 32 ∧ 0x0C % 4 = 0 ∧ 0x0C < 0x10) ∧ ¬(32 = 32 ∧ 0x10 % 4 = 0 ∧ 0x10 < 0x10) ∧
    ¬(32 = 32 ∧ 0x02 % 4 = 0 ∧ 0x02 < 0x10) ∧ ¬(16 = 32 ∧ 0x04 % 4 = 0 ∧ 0x04 < 0x10) := by decide

theorem witness_CommandErrorsArePrecise :
    (idle 34 0).Inv ∧ (idle 34 0).busy = false ∧ (idle 34 0).err = false ∧
    decode 0xCFFFFFFF#32 = .error .illegalOpcode ∧ decode 0x80000100#32 = .error .reservedField :=
  ⟨idle_inv (by decide), rfl, rfl, rfl, rfl⟩

theorem witness_ErrorStopsTheBlockUntilReset :
    failed.Inv ∧ failed.err = true ∧
    ∃ t, step { failed with turns := [.host], host := [.write 32 0x00 0x8000006A#32] } = .next t :=
  ⟨failed_inv, rfl, _, rfl⟩

theorem witness_ExecutionNeverFails :
    let s := { idle 0 0 with turns := [.host], host := [.write 32 0x00 0xC0000000#32] }
    s.err = false ∧ ∃ t, step s = .next t ∧ t.err = true := ⟨rfl, _, rfl, rfl⟩

/-- The clause `RejectsOtherWords` of the commands' statements: for each opcode the word with the lowest
reserved bit set. -/
theorem witness_RejectsOtherWords :
    ((0x00000001#32).toNat / 2 ^ 28 = 0x0 ∧ 0x00000001#32 ≠ 0x00000000#32) ∧
    ((0x10000002#32).toNat / 2 ^ 28 = 0x1 ∧ 0x10000002#32 ≠ 0x10000000#32 ∧ 0x10000002#32 ≠ 0x10000001#32) ∧
    ((0x21000000#32).toNat / 2 ^ 28 = 0x2 ∧ ¬ (0x21000000#32).toNat < 0x20000000 + 2 ^ 24) ∧
    ((0x30000001#32).toNat / 2 ^ 28 = 0x3 ∧ 0x30000001#32 ≠ 0x30000000#32) ∧
    ((0x40000001#32).toNat / 2 ^ 28 = 0x4 ∧ 0x40000001#32 ≠ 0x40000000#32) ∧
    ((0x50000001#32).toNat / 2 ^ 28 = 0x5 ∧ 0x50000001#32 ≠ 0x50000000#32) ∧
    ((0x60000002#32).toNat / 2 ^ 28 = 0x6 ∧ 0x60000002#32 ≠ 0x60000000#32 ∧ 0x60000002#32 ≠ 0x60000001#32) ∧
    ((0x70000002#32).toNat / 2 ^ 28 = 0x7 ∧ 0x70000002#32 ≠ 0x70000000#32 ∧ 0x70000002#32 ≠ 0x70000001#32) ∧
    ((0x80000100#32).toNat / 2 ^ 28 = 0x8 ∧ ¬ (0x80000100#32).toNat < 0x80000000 + 2 ^ 8) ∧
    ((0x90010000#32).toNat / 2 ^ 28 = 0x9 ∧ ¬ (0x90010000#32).toNat < 0x90000000 + 2 ^ 16) ∧
    ((0xA0000001#32).toNat / 2 ^ 28 = 0xA ∧ 0xA0000001#32 ≠ 0xA0000000#32) ∧
    ((0xB0000001#32).toNat / 2 ^ 28 = 0xB ∧ 0xB0000001#32 ≠ 0xB0000000#32) := by decide

theorem witness_CrcStepBitTable : (2 ≤ 5 ∧ 5 ≤ 5) ∧ (7 ≤ 12 ∧ 12 ≤ 12) := by decide

theorem witness_CrcStepIgnoresBitFourteen :
    crcFold 0x5040#16 (List.replicate 5 false) = 0x0000#16 := by decide +kernel

theorem witness_EightFoldsLeaveOnlyTheCarries :
    wordBits 0x1234#16 ≠ [] ∧ (wordBits 0x1234#16).length % 8 = 0 ∧
    carrySpan 0xFF#8 = carrySpan 0xFF#8 := by decide +kernel

theorem witness_ByteFoldForgetsEvenBits :
    0xA000#16 &&& 0x0AAA#16 = 0x0000#16 ∧ 0x0000#16 &&& 0xAAAA#16 = 0x5555#16 &&& 0xAAAA#16 ∧
    crcFold 0x0000#16 (byteBits 0x01#8) &&& 0xA000#16 = 0x8000#16 &&& 0xA000#16 ∧
    0x8000#16 &&& 0x0AAA#16 = 0x0000#16 := by decide +kernel

theorem witness_CrcFoldIsDeterministic :
    (∃ t, CompletesAll ([true, false].map .crcBit) (idle 0 0) t) ∧
    ∃ t, CompletesAll (.crcReset :: [true].map .crcBit) (idle 0 0) t :=
  ⟨⟨_, _, ⟨_, 0, rfl, rfl, rfl⟩, _, ⟨_, 0, rfl, rfl, rfl⟩, rfl⟩,
    _, _, ⟨_, 0, rfl, rfl, rfl⟩, _, ⟨_, 0, rfl, rfl, rfl⟩, rfl⟩

theorem witness_CrcChangesOnlyByItsCommands :
    (isSynthesizer .symSync = true ∧ ∃ t, exec .symSync (idle 0 0) = .next t) ∧
    ((idle 0 0).Inv ∧ (idle 0 0).busy = false ∧ (idle 0 0).rst = false ∧
      ∃ t, Completes (.frBit true) (idle 0 0) t) ∧
    (0x0C ≠ 0x00 ∧ ∃ t, access (.write 32 0x0C 1#32) (idle 0 0) = .next t) :=
  ⟨⟨rfl, _, rfl⟩, ⟨idle_inv (by decide), rfl, rfl, _, _, 0, rfl, rfl, rfl⟩, by decide, _, rfl⟩

theorem witness_AppendDeliversOnOverflow :
    (1 ≤ symbolSync.length ∧ symbolSync.length ≤ 34) ∧
    (idle 990 0).occ + symbolSync.length ≤ 1024 ∧ 1024 < (idle 991 0).occ + symbolSync.length ∧
    (idle 991 1).sinkReady = 0 + 1 ∧ (idle 991 0).sinkReady = 0 := by decide +kernel

theorem witness_SinkAcceptsTheOfferedChunk :
    (idle 5 0).sinkReady = 0 ∧ accepting.turns = .sink :: [] ∧
    accepting.pend = some ((List.replicate 1024 0x00AA#16).take 1001) ∧
    (let s := { waiting with turns := [.host], host := [.read 32 0x04] }
     s.Inv ∧ s.busy = true ∧ s.turns = .host :: [] ∧ ∃ t, step s = .next t) :=
  ⟨rfl, rfl, rfl, inv_with_agents waiting_inv _ _, rfl, rfl, _, rfl⟩

theorem witness_DeliveredChunksOnlyGrow :
    accepting.Inv ∧ ∃ t, step accepting = .next t := ⟨accepting_inv, _, rfl⟩

theorem witness_ChunkSizes :
    ((idle 1001 1).Inv ∧ (idle 1001 1).busy = false ∧ Instr.symBit false ≠ .flush ∧
      ∃ t, exec (.symBit false) (idle 1001 1) = .next t) ∧
    (waiting.Inv ∧ (∃ f, waiting.cur = some f ∧ f.cmd ≠ .flush) ∧ ∃ c, waiting.pend = some c) ∧
    ∃ t, exec .flush (idle 1 1) = .next t :=
  ⟨⟨idle_inv (by decide), rfl, by decide, _, rfl⟩,
    ⟨waiting_inv, ⟨_, rfl, by decide⟩, _, rfl⟩, _, rfl⟩

theorem witness_CompletedCommandsConserveSamples :
    (idle 1001 1).Inv ∧ (idle 1001 1).busy = false ∧ (idle 1001 1).rst = false ∧
    (∀ i ∈ [Instr.symBit false], i.wellFormed = true) ∧
    ∃ t, CompletesAll [.symBit false] (idle 1001 1) t :=
  ⟨idle_inv (by decide), rfl, rfl, by decide, _, _, ⟨_, 0, rfl, rfl, by decide +kernel⟩, rfl⟩

theorem witness_EveryStepConservesSamples :
    writing.Inv ∧ ∃ t, step writing = .next t := ⟨writing_inv, _, rfl⟩

theorem witness_EveryCommandCompletes :
    (Instr.symPreamble 60).wellFormed = true ∧ (idle 1024 0).Inv ∧ (idle 1024 0).busy = false ∧
    (idle 1024 0).rst = false ∧ (idle 1024 0).err = false :=
  ⟨by decide, idle_inv (by decide), rfl, rfl, rfl⟩

theorem witness_SymBitRendersOneSymbol :
    (idle 1000 0).occ + 2 * 12 ≤ 1024 ∧ 1024 < (idle 1001 0).occ + 2 * 12 ∧
    (idle 1008 0).occ + 2 * 8 ≤ 1024 ∧ 1024 < (idle 1009 0).occ + 2 * 8 ∧
    (idle 1001 1).sinkReady = 0 + 1 ∧ (idle 1001 0).sinkReady = 0 := by decide

theorem witness_SymPreambleRendersNUnits :
    16777215 < 2 ^ 24 ∧ ((idle 0 2).ob.length = 1024 ∧ (idle 0 2).occ ≤ 1024) ∧
    56 ≤ (1024 - (idle 0 2).occ) / 18 ∧
    ((1024 - (idle 0 2).occ) / 18 < 113 ∧
      (113 - (1024 - (idle 0 2).occ) / 18 - 1) / 56 + 1 ≤ (idle 0 2).sinkReady) ∧
    (0 < (idle 0 1).sinkReady ∧ (idle 0 1).sinkReady ≤ (113 - (1024 - (idle 0 1).occ) / 18 - 1) / 56) ∧
    (1024 - (idle 0 0).occ) / 18 < 57 ∧ (idle 0 0).sinkReady = 0 := by decide +kernel

theorem witness_SymSyncRendersOneTone :
    (idle 990 0).occ ≤ 990 ∧ 990 < (idle 991 0).occ ∧ (idle 991 1).sinkReady = 0 + 1 ∧
    (idle 991 0).sinkReady = 0 := by decide

theorem witness_SymSilenceRendersOneSecond :
    (idle 1024 44).ob.length = 1024 ∧ (idle 1024 44).occ ≤ 1024 ∧
    ((idle 1024 44).occ + 44100 - 1) / 1024 ≤ (idle 1024 44).sinkReady ∧
    (idle 1024 43).sinkReady < ((idle 1024 43).occ + 44100 - 1) / 1024 ∧
    (idle 1024 0).sinkReady = 0 := by decide +kernel

theorem witness_SynthesizerIgnoresCrcAndErrors :
    isSynthesizer (.symBit true) = true ∧ isSynthesizer .symSilence = true ∧
    ∃ f, waiting.cur = some f ∧ isSynthesizer f.cmd = true :=
  ⟨rfl, rfl, _, rfl, rfl⟩

theorem witness_SampleCountsOfSymbols :
    ((idle 0 0).Inv ∧ (idle 0 0).busy = false ∧ (idle 0 0).rst = false) ∧
    (∃ t, Completes (.symBit false) (idle 0 0) t) ∧ (∃ t, Completes (.symBit true) (idle 0 0) t) ∧
    (0 < 2 ^ 24 ∧ ∃ t, Completes (.symPreamble 0) (idle 0 0) t) ∧
    (∃ t, Completes .symSync (idle 0 0) t) ∧
    [true, false, true, false, true, false, true, true].length = 8 :=
  ⟨⟨idle_inv (by decide), rfl, rfl⟩, ⟨_, _, 0, rfl, rfl, rfl⟩, ⟨_, _, 0, rfl, rfl, rfl⟩,
    ⟨by decide, _, _, 0, rfl, rfl, rfl⟩, ⟨_, _, 0, rfl, rfl, rfl⟩, rfl⟩

/-- The silence's clause: a sink that takes every chunk at once lets it complete. -/
theorem witness_SymSilenceCompletes : ∃ t, Completes .symSilence (idle 0 44100) t := by
  rcases repeatAppend_runs (l := [zeroSample]) (n := Config.silenceLen) (k := 0)
      (s := (idle 0 44100).accept .symSilence 0) (by decide) (by decide) List.length_replicate
      (Nat.zero_le _) with ⟨t, ht, -⟩ | ⟨j, u, -, hj, -, hp, hz, -⟩
  · refine ⟨settle (.ran t), settle (.ran t), 0, ?_, rfl, rfl⟩
    exact congrArg (fun f => Host.Outcome.next (settle f)) ht
  · have h : u.sinkReady + (j - 0) ≥ 44100 := hp.sink
    have hj' : j < 44100 := hj
    omega

/-- FrBitRendersAndFolds, FrByteRendersAndFolds, FrWordRendersAndFolds, FrCrcWordEmitsTheStartingCrc:
exactly room for all the symbols, and one sample too little, with a ready sink and without. -/
theorem witness_framer :
    ((idle 1024 0).ob.length = 1024 ∧ (idle 1024 0).occ ≤ 1024) ∧
    (idle 1000 0).occ + (shape [false]).length ≤ 1024 ∧
    1024 < (idle 1001 0).occ + (shape [false]).length ∧
    (idle 832 0).occ + (shape (byteBits 0x00#8)).length ≤ 1024 ∧
    1024 < (idle 833 0).occ + (shape (byteBits 0x00#8)).length ∧
    (idle 640 0).occ + (shape (wordBits 0x0000#16)).length ≤ 1024 ∧
    1024 < (idle 641 0).occ + (shape (wordBits 0x0000#16)).length ∧
    (idle 641 1).sinkReady = 0 + 1 ∧ (idle 641 0).sinkReady = 0 := by decide +kernel

theorem witness_FramedByteSampleCount :
    (idle 0 0).Inv ∧ (idle 0 0).busy = false ∧ (idle 0 0).rst = false ∧
    ∃ t, Completes (.frByte 0x6A#8) (idle 0 0) t :=
  ⟨idle_inv (by decide), rfl, rfl, _, _, 0, rfl, rfl, by decide +kernel⟩

theorem witness_FramerSerialOrder :
    (∀ i ∈ [Instr.frBit true, .frBit false], isFramer i = true) ∧ (idle 0 0).Inv ∧
    ∃ t, CompletesAll [.frBit true, .frBit false] (idle 0 0) t :=
  ⟨by decide, idle_inv (by decide), _, _, ⟨_, 0, rfl, rfl, rfl⟩, _, ⟨_, 0, rfl, rfl, by decide +kernel⟩,
    rfl⟩

theorem witness_NopChangesNothing : (idle 5 0).Inv ∧ (idle 5 0).busy = false :=
  ⟨idle_inv (by decide), rfl⟩

theorem witness_FlushDeliversTheBuffer :
    (idle 0 0).occ = 0 ∧ (0 < (idle 1 1).occ ∧ (idle 1 1).sinkReady = 0 + 1) ∧
    (0 < (idle 1024 0).occ ∧ (idle 1024 0).sinkReady = 0) := by decide

theorem witness_StringPseudoInstruction :
    (List.replicate 10 0x41#8).length ≤ 10 ∧ 10 < (List.replicate 11 0x41#8).length := by decide

theorem witness_CrcStepIsLinear : (1 = 1 ∨ 1 = 2) ∧ (2 = 1 ∨ 2 = 2) := by decide

theorem witness_AssemblerEmitsOnlyLegalWords :
    ∃ words, assemble "crc.reset\nflush".toList = .ok words ∧ 0xB0000000#32 ∈ words :=
  ⟨_, rfl, by decide⟩

end Sys2Proof.Tests
end

section
/-! PROOFS. The state of the block (10_state.md): its reset values, its invariant, and its CRC.

A command in flight is followed through four views of a state: idle, running, waiting for the sink, and
free of errors and of RST. `State.Advances` says once what a settled run of a command's body leaves; the
invariant's step lemma and the CRC of a completed command are both read off it. -/

namespace Sys2Proof.Machine

/-! ### Views of a state -/

/-- The buffer is in its canonical form and the cursor is inside it (R22, R23). -/
structure State.BufferOk (s : State) : Prop where
  ob_wf : s.ob.length = 1024
  occ_le : s.occ ≤ 1024

/-- No command is in flight (R24, R26). -/
structure State.Idle (s : State) : Prop extends s.BufferOk where
  busy : s.busy = false
  cur : s.cur = none
  pend : s.pend = none

/-- The body of `c` is being executed: nothing is on offer (R26, R57). -/
structure State.Running (s : State) (c : InFlight) : Prop extends s.BufferOk where
  busy : s.busy = true
  cur : s.cur = some c
  pend : s.pend = none

/-- `InFlight.wf` without the check of the operand, which no body makes. -/
structure InFlight.AtWaitPoint (c : InFlight) : Prop where
  done_lt : c.done < waitPoints c.cmd
  snapshot : c.cmd = .frCrcWord ∨ c.snapshot = 0

/-- `c` waits in `Deliver` with what is buffered on offer (R57). -/
structure State.WaitsOn (s : State) (c : InFlight) : Prop extends s.BufferOk where
  busy : s.busy = true
  cur : s.cur = some c
  at_wait_point : c.AtWaitPoint
  pend : s.pend = some s.buffered
  occ_pos : 0 < s.occ

/-- No error is recorded and RST is not asserted: the states in which a command word is executed (R192). -/
structure State.Clear (s : State) : Prop where
  err : s.err = false
  errCode : s.errCode = 0
  rst : s.rst = false

theorem InFlight.wf_iff (c : InFlight) :
    c.wf = true ↔ c.cmd.wellFormed = true ∧ c.AtWaitPoint := by
  simp only [InFlight.wf, Bool.and_eq_true, Bool.or_eq_true, decide_eq_true_eq, beq_iff_eq, and_assoc]
  exact and_congr_right fun _ => ⟨fun ⟨hd, hs⟩ => ⟨hd, hs⟩, fun ⟨hd, hs⟩ => ⟨hd, hs⟩⟩

/-! ### The views and the invariant -/

theorem State.Inv.idle {s : State} (h : s.Inv) (hb : s.busy = false) : s.Idle where
  ob_wf := h.ob_wf
  occ_le := h.occ_le_cap
  busy := hb
  cur := (h.idle_nothing_in_flight hb).1
  pend := (h.idle_nothing_in_flight hb).2

theorem State.Inv.waitsOn {s : State} (h : s.Inv) (hb : s.busy = true) :
    ∃ c, s.WaitsOn c ∧ c.cmd.wellFormed = true := by
  obtain ⟨c, hc, hwf⟩ := h.busy_in_flight hb
  obtain ⟨hcmd, hat⟩ := c.wf_iff.mp hwf
  have hocc : 0 < s.occ := by
    have hlen := (h.pend_size _ (h.busy_offers hb)).1
    rwa [buffered_length (h.ob_wf ▸ h.occ_le_cap)] at hlen
  exact ⟨c, ⟨⟨h.ob_wf, h.occ_le_cap⟩, hb, hc, hat, h.busy_offers hb, hocc⟩, hcmd⟩

/-- While BUSY is 1 there is no error, and RST is not asserted. -/
theorem State.Inv.clear_of_busy {s : State} (h : s.Inv) (hb : s.busy = true) : s.Clear where
  err := h.busy_no_err hb
  errCode := h.no_err_no_code (h.busy_no_err hb)
  rst := by
    by_contra hr
    obtain ⟨-, -, hidle, -, -⟩ := h.in_reset (by simpa using hr)
    simp [hb] at hidle

theorem State.Idle.inv {s : State} (h : s.Idle) (hno : s.err = false → s.errCode = 0)
    (hcode : s.err = true → s.errCode = 1 ∨ s.errCode = 2)
    (hrst : s.rst = true → s.crc = 0 ∧ s.occ = 0 ∧ s.err = false ∧ s.held = none) : s.Inv where
  occ_le_cap := h.occ_le
  no_err_no_code := hno
  err_code_legal := hcode
  busy_no_err := by simp [h.busy]
  idle_nothing_in_flight := fun _ => ⟨h.cur, h.pend⟩
  pend_size := by simp [h.pend]
  ob_wf := h.ob_wf
  busy_in_flight := by simp [h.busy]
  busy_offers := by simp [h.busy]
  in_reset := fun hr =>
    have ⟨hcrc, hocc, herr, hheld⟩ := hrst hr
    ⟨hcrc, hocc, h.busy, herr, hheld⟩

theorem State.Idle.inv_of_clear {s : State} (h : s.Idle) (hc : s.Clear) : s.Inv :=
  h.inv (fun _ => hc.errCode) (by simp [hc.err]) (by simp [hc.rst])

theorem State.WaitsOn.inv {s : State} {c : InFlight} (h : s.WaitsOn c)
    (hw : c.cmd.wellFormed = true) (hc : s.Clear) : s.Inv where
  occ_le_cap := h.occ_le
  no_err_no_code := fun _ => hc.errCode
  err_code_legal := by simp [hc.err]
  busy_no_err := fun _ => hc.err
  idle_nothing_in_flight := by simp [h.busy]
  pend_size := by
    have hlen := buffered_length (h.ob_wf ▸ h.occ_le)
    have hocc := h.occ_le
    have hpos := h.occ_pos
    rintro _ hp
    obtain rfl := Option.some.inj (h.pend.symm.trans hp)
    omega
  ob_wf := h.ob_wf
  busy_in_flight := fun _ => ⟨c, h.cur, c.wf_iff.mpr ⟨hw, h.at_wait_point⟩⟩
  busy_offers := fun _ => h.pend
  in_reset := by simp [hc.rst]

/-- The invariant speaks of the block alone: the agents around it, the stream and the counters may be
anything, but no write is held while RST is asserted. -/
theorem State.Inv.with_environment {s : State} (h : s.Inv) {delivered : List (List Sample)}
    {held : Option Word} {cmdIndex sinkReady : Nat} {host : List Access} {turns : List Turn}
    {reads : List Word} {draws : Nat} (hheld : s.rst = true → held = none) :
    { s with delivered := delivered, held := held, cmdIndex := cmdIndex, sinkReady := sinkReady,
             host := host, turns := turns, reads := reads, draws := draws }.Inv where
  occ_le_cap := h.occ_le_cap
  no_err_no_code := h.no_err_no_code
  err_code_legal := h.err_code_legal
  busy_no_err := h.busy_no_err
  idle_nothing_in_flight := h.idle_nothing_in_flight
  pend_size := h.pend_size
  ob_wf := h.ob_wf
  busy_in_flight := h.busy_in_flight
  busy_offers := h.busy_offers
  in_reset := fun hr =>
    have ⟨hcrc, hocc, hbusy, herr, _⟩ := h.in_reset hr
    ⟨hcrc, hocc, hbusy, herr, hheld hr⟩

theorem State.Inv.held_none {s : State} (h : s.Inv) (hr : s.rst = true) : s.held = none :=
  have ⟨_, _, _, _, hheld⟩ := h.in_reset hr
  hheld

/-! ### A command's body, settled -/

section
variable {units : List (List Sample)} {bits : List Bool} {s u : State} {k j : Nat}

theorem Progress.busy (h : Progress units bits s k u j) : u.busy = s.busy := by rw [h.frame]

theorem Progress.cur (h : Progress units bits s k u j) : u.cur = s.cur := by rw [h.frame]

theorem Progress.err (h : Progress units bits s k u j) : u.err = s.err := by rw [h.frame]

theorem Progress.errCode (h : Progress units bits s k u j) : u.errCode = s.errCode := by rw [h.frame]

theorem Progress.rst (h : Progress units bits s k u j) : u.rst = s.rst := by rw [h.frame]

theorem Progress.running {c : InFlight} (h : Progress units bits s k u j) (hs : s.Running c) :
    u.Running c where
  ob_wf := h.ob_wf
  occ_le := h.occ_le
  busy := h.busy.trans hs.busy
  cur := h.cur.trans hs.cur
  pend := h.pend.elim (·.trans hs.pend) id

end

theorem State.Running.settle_ran_idle {s : State} {c : InFlight} (h : s.Running c) :
    (settle (.ran s)).Idle :=
  ⟨⟨h.ob_wf, h.occ_le⟩, rfl, rfl, h.pend⟩

theorem State.Running.offering_waitsOn {s : State} {c : InFlight} {j : Nat} (h : s.Running c)
    (hc : c.AtWaitPoint) (hj : j < waitPoints c.cmd) (hocc : 0 < s.occ) :
    (s.offering.withProgress j).WaitsOn { c with done := j } where
  ob_wf := h.ob_wf
  occ_le := h.occ_le
  busy := h.busy
  cur := by simp [h.cur]
  at_wait_point := ⟨hj, hc.snapshot⟩
  pend := rfl
  occ_pos := hocc

/-- A waiting command has a wait point for each bit it folds. -/
theorem foldedBits_length_le {i : Instr} (h : 0 < waitPoints i) (crc : Crc) :
    (foldedBits crc i).length ≤ waitPoints i := by
  cases i with
  | frByte v => simp [foldedBits, waitPoints]
  | frWord v => simp [foldedBits, waitPoints]
  | frCrcWord => simp [foldedBits, waitPoints]
  | frBit b => simp [foldedBits, waitPoints]
  | crcBit b => simp [waitPoints] at h
  | nop | symBit b | symPreamble n | symSync | symSilence | crcReset | flush => simp [foldedBits]

/-- What the body of `c`, run from `s` and settled, leaves in `t`: the command is over or waits again,
its CRC is on the way to the same value, and the error flags and RST are as they were. -/
structure State.Advances (s : State) (c : InFlight) (t : State) : Prop where
  settled : t.Idle ∨ ∃ j, t.WaitsOn { c with done := j }
  fold : crcFold t.crc t.owedBits = crcFold s.crc s.owedBits
  err : t.err = s.err
  errCode : t.errCode = s.errCode
  rst : t.rst = s.rst

theorem State.Running.advances {s : State} {c : InFlight} {f : Flow} (h : s.Running c)
    (hc : c.AtWaitPoint)
    (hr : Runs f (appendUnits c.snapshot c.cmd) (foldedBits c.snapshot c.cmd) s c.done
      (waitPoints c.cmd)) : s.Advances c (settle f) := by
  have howed : s.owedBits = (foldedBits c.snapshot c.cmd).drop c.done := by
    simp [State.owedBits, h.cur]
  rcases hr with ⟨t, rfl, hp⟩ | ⟨j, u, -, hj, rfl, hp, -, hocc⟩
  · refine ⟨.inl (hp.running h).settle_ran_idle, ?_, hp.err, hp.errCode, hp.rst⟩
    have hfold := hp.fold
    rw [List.drop_of_length_le (foldedBits_length_le (Nat.zero_lt_of_lt hc.done_lt) _)] at hfold
    rw [howed, ← hfold]
    rfl
  · have hw := (hp.running h).offering_waitsOn hc hj hocc
    refine ⟨.inr ⟨j, hw⟩, ?_, hp.err, hp.errCode, hp.rst⟩
    rw [howed, ← hp.fold, settle_waits, State.owedBits, hw.cur]
    rfl

theorem State.Advances.inv {s t : State} {c : InFlight} (h : s.Advances c t)
    (hw : c.cmd.wellFormed = true) (hs : s.Clear) : t.Inv := by
  have hclear : t.Clear := ⟨h.err.trans hs.err, h.errCode.trans hs.errCode, h.rst.trans hs.rst⟩
  rcases h.settled with hi | ⟨j, hj⟩
  · exact hi.inv_of_clear hclear
  · exact hj.inv hw hclear

/-- `resumeBody_runs` needs no check of the operand: the one operand that can fail it is a preamble's
count, and any count of appends runs. -/
theorem State.Running.resumeBody_runs {s : State} {c : InFlight} (h : s.Running c)
    (hc : c.AtWaitPoint) :
    Runs (resumeBody c s) (appendUnits c.snapshot c.cmd) (foldedBits c.snapshot c.cmd) s c.done
      (waitPoints c.cmd) := by
  by_cases hw : c.cmd.wellFormed = true
  · exact Machine.resumeBody_runs h.cur (c.wf_iff.mpr ⟨hw, hc⟩) h.ob_wf h.occ_le
  · obtain ⟨cmd, k, w⟩ := c
    cases cmd with
    | symPreamble n => exact repeatAppend_runs (by simp) (le_of_lt hc.done_lt) h.ob_wf h.occ_le
    | nop | symBit b | symSync | symSilence | crcReset | crcBit b | frBit b | frByte v | frWord v
    | frCrcWord | flush => exact absurd rfl hw

/-! ### The two moves that run a command -/

theorem State.WaitsOn.running {s : State} {c : InFlight} (h : s.WaitsOn c) :
    (s.acceptChunk s.buffered).Running c :=
  ⟨⟨h.ob_wf, Nat.zero_le _⟩, h.busy, h.cur, rfl⟩

theorem State.WaitsOn.sinkTurn_advances {s : State} {c : InFlight} (h : s.WaitsOn c) :
    (s.acceptChunk s.buffered).Advances c (sinkTurn s) := by
  have hturn : sinkTurn s = settle (resumeBody c (s.acceptChunk s.buffered)) := by
    simp [sinkTurn, h.pend, resume, h.cur]
  rw [hturn]
  exact h.running.advances h.at_wait_point (h.running.resumeBody_runs h.at_wait_point)

theorem State.Idle.running {s : State} (h : s.Idle) (i : Instr) (w : Crc) :
    (s.accept i w).Running ⟨i, 0, w⟩ :=
  ⟨⟨h.ob_wf, h.occ_le⟩, rfl, rfl, h.pend⟩

theorem startSnapshot_ok (s : State) (i : Instr) : i = .frCrcWord ∨ startSnapshot s i = 0 := by
  by_cases hi : i = .frCrcWord
  · exact .inl hi
  · exact .inr (if_neg hi)

/-- A command with no wait point completes at once, and only the CRC can have changed. -/
theorem exec_of_waitPoints_zero {i : Instr} (h : waitPoints i = 0) (s : State) :
    exec i s = .next { s with crc := crcAfter s.crc i, cur := none, busy := false } := by
  cases i with
  | nop => exact exec_nop s
  | crcReset => exact exec_crcReset s
  | crcBit b => exact exec_crcBit b s
  | symPreamble n =>
    obtain rfl : n = 0 := h
    exact execSymPreamble_zero s
  | symBit b | symSync | symSilence | frBit b | frByte v | frWord v | frCrcWord | flush =>
    simp [waitPoints, Config.silenceLen, Config.sampleRate] at h

theorem State.Idle.exec_advances {s : State} {i : Instr} (h : s.Idle) (hi : 0 < waitPoints i) :
    ∃ t, exec i s = .next t ∧
      (s.accept i (startSnapshot s i)).Advances ⟨i, 0, startSnapshot s i⟩ t := by
  have hat : InFlight.AtWaitPoint ⟨i, 0, startSnapshot s i⟩ := ⟨hi, startSnapshot_ok s i⟩
  have hrun := h.running i (startSnapshot s i)
  exact ⟨_, exec_eq_resume i s, hrun.advances hat (hrun.resumeBody_runs hat)⟩

/-! ### The invariant, move by move -/

theorem sinkTurn_inv {s : State} (h : s.Inv) : (sinkTurn s).Inv := by
  cases hb : s.busy with
  | true =>
    obtain ⟨c, hc, hw⟩ := h.waitsOn hb
    obtain ⟨herr, hcode, hrst⟩ := h.clear_of_busy hb
    exact hc.sinkTurn_advances.inv hw ⟨herr, hcode, hrst⟩
  | false =>
    have hturn : sinkTurn s = { s with sinkReady := s.sinkReady + 1 } := by
      simp [sinkTurn, (h.idle hb).pend]
    rw [hturn]
    exact h.with_environment h.held_none

theorem exec_inv {s t : State} {i : Instr} (h : s.Inv) (hb : s.busy = false) (hs : s.Clear)
    (hw : i.wellFormed = true) (he : exec i s = .next t) : t.Inv := by
  have hi := h.idle hb
  rcases Nat.eq_zero_or_pos (waitPoints i) with h0 | hpos
  · rw [exec_of_waitPoints_zero h0] at he
    cases he
    exact State.Idle.inv_of_clear ⟨⟨hi.ob_wf, hi.occ_le⟩, rfl, rfl, hi.pend⟩
      ⟨hs.err, hs.errCode, hs.rst⟩
  · obtain ⟨u, hu, hadv⟩ := hi.exec_advances hpos
    rw [hu] at he
    cases he
    exact hadv.inv hw ⟨hs.err, hs.errCode, hs.rst⟩

theorem checkReserved_ok {fmt : Format} {w : Word} {i j : Instr}
    (h : checkReserved fmt w i = .ok j) : i = j := by
  unfold checkReserved at h
  split at h
  · exact Except.ok.inj h
  · cases h

/-- Decoding yields only commands that have an encoding: the count of format N has 24 bits (R82). -/
theorem wellFormed_of_decode {w : Word} {i : Instr} (h : decode w = .ok i) : i.wellFormed = true := by
  have hcount : (Instr.symPreamble (countOperand w)).wellFormed = true :=
    decide_eq_true (w.extractLsb' 0 24).isLt
  unfold decode at h
  split at h
  case h_13 => cases h -- opcodes 0xC to 0xF
  all_goals obtain rfl := checkReserved_ok h
  case h_3 => exact hcount -- opcode 0x2
  all_goals rfl

theorem raiseCmdError_inv {s : State} (e : CmdError) (h : s.Inv) (hb : s.busy = false)
    (hr : s.rst = false) : (raiseCmdError e s).Inv := by
  have hi := h.idle hb
  refine State.Idle.inv ⟨⟨hi.ob_wf, hi.occ_le⟩, hi.busy, hi.cur, hi.pend⟩ nofun (fun _ => ?_)
    (by simp [hr])
  cases e with
  | illegalOpcode => exact .inl rfl
  | reservedField => exact .inr rfl

theorem onCmdWrite_inv {s t : State} {w : Word} (h : s.Inv) (hb : s.busy = false)
    (hr : s.rst = false) (ht : onCmdWrite w s = .next t) : t.Inv := by
  have h' : { s with cmdIndex := s.cmdIndex + 1 }.Inv :=
    h.with_environment h.held_none
  rcases onCmdWrite_cases w s with ⟨-, he⟩ | ⟨-, e, -, he⟩ | ⟨herr, i, hd, he⟩ <;> rw [he] at ht
  · cases ht; exact h'
  · cases ht; exact raiseCmdError_inv e h' hb hr
  · exact exec_inv h' hb ⟨herr, h.no_err_no_code herr, hr⟩ (wellFormed_of_decode hd) ht

theorem softReset_resetValues (s : State) : (softReset s).ResetValues :=
  ⟨rfl, rfl, rfl, rfl, rfl, rfl, rfl⟩

theorem State.ResetValues.inv {s : State} (h : s.ResetValues) (hob : s.ob.length = 1024)
    (hheld : s.rst = true → s.held = none) : s.Inv :=
  State.Idle.inv ⟨⟨hob, h.occ ▸ Nat.zero_le _⟩, h.busy, h.cur, h.pend⟩ (fun _ => h.errCode)
    (by simp [h.err]) (fun hr => ⟨h.crc, h.occ, h.err, hheld hr⟩)

theorem softReset_inv {s : State} (hheld : s.rst = true → s.held = none) : (softReset s).Inv :=
  (softReset_resetValues s).inv (by simp [unspecifiedCells_length]) hheld

theorem assertReset_inv (s : State) : (assertReset s).Inv :=
  State.ResetValues.inv ⟨rfl, rfl, rfl, rfl, rfl, rfl, rfl⟩ (by simp [unspecifiedCells_length])
    (fun _ => rfl)

theorem releaseReset_inv {s : State} (h : s.Inv) : (releaseReset s).Inv := by
  unfold releaseReset
  split
  · exact State.ResetValues.inv ⟨rfl, rfl, rfl, rfl, rfl, rfl, rfl⟩
      (by simp [unspecifiedCells_length]) nofun
  · exact h

theorem regWrite_inv {s t : State} {r : Register} {v : Word} (h : s.Inv) (hr : s.rst = false)
    (ht : regWrite r v s = .next t) : t.Inv := by
  cases r with
  | cmd =>
    cases hb : s.busy with
    | true =>
      obtain rfl : { s with held := some v } = t := by simpa [regWrite, writeCmd, hb] using ht
      exact h.with_environment (by simp [hr])
    | false => exact onCmdWrite_inv h hb hr (by simpa [regWrite, writeCmd, hb] using ht)
  | status => cases ht; exact h
  | crcr => cases ht; exact h
  | ctrl =>
    cases ht
    unfold writeCtrl
    split
    · exact softReset_inv h.held_none
    · exact h

theorem access_inv {s t : State} {a : Access} (h : s.Inv) (hr : s.rst = false)
    (ht : access a s = .next t) : t.Inv := by
  rcases access_cases ht with ⟨r, rfl⟩ | ⟨r, v, hw⟩
  · obtain ⟨v, d, he⟩ := regRead_frame r s
    rw [he]
    exact h.with_environment h.held_none
  · exact regWrite_inv h hr hw

/-- Everything the host's turn can do that is not refused: nothing, the held word's treatment once BUSY
is 0, or the next access, and neither of the last two while RST is asserted (R192, R194, R251). -/
theorem hostTurn_cases {s t : State} (h : hostTurn s = .next t) :
    t = s ∨
      (∃ w, s.held = some w ∧ s.rst = false ∧ s.busy = false ∧
        onCmdWrite w { s with held := none } = .next t) ∨
      (∃ a as, s.held = none ∧ s.host = a :: as ∧ s.rst = false ∧
        access a { s with host := as } = .next t) := by
  cases hheld : s.held with
  | some w =>
    cases hr : s.rst with
    | true => simp [hostTurn, hheld, hr] at h
    | false =>
      cases hb : s.busy with
      | true => exact .inl (by simpa [hostTurn, hheld, hr, hb, eq_comm] using h)
      | false => exact .inr (.inl ⟨w, rfl, rfl, rfl, by simpa [hostTurn, hheld, hr, hb] using h⟩)
  | none =>
    cases hhost : s.host with
    | nil => exact .inl (by simpa [hostTurn, hheld, hhost, eq_comm] using h)
    | cons a as =>
      cases hr : s.rst with
      | true => simp [hostTurn, hheld, hhost, hr] at h
      | false =>
        exact .inr (.inr ⟨a, as, rfl, rfl, rfl, by simpa [hostTurn, hheld, hhost, hr] using h⟩)

theorem hostTurn_inv {s t : State} (h : s.Inv) (ht : hostTurn s = .next t) : t.Inv := by
  rcases hostTurn_cases ht with rfl | ⟨w, -, hr, hb, hw⟩ | ⟨a, as, -, -, hr, ha⟩
  · exact h
  · have h' : { s with held := none }.Inv := h.with_environment fun _ => rfl
    exact onCmdWrite_inv h' hb hr hw
  · have h' : { s with host := as }.Inv := h.with_environment h.held_none
    exact access_inv h' hr ha

/-- Where RST wins over the host's next access, the state is one with RST just asserted (R225). -/
theorem assertResetWithWrite_cases {s t : State} (h : assertResetWithWrite s = .next t) :
    ∃ u, t = assertReset u := by
  unfold assertResetWithWrite at h
  split at h
  · exact ⟨s, by cases h; rfl⟩
  · exact ⟨s, by cases h; rfl⟩
  · split at h
    · split at h
      · cases h
      · exact ⟨_, by cases h; rfl⟩
    · cases h

theorem takeTurn_inv {s t : State} {m : Turn} (h : s.Inv) (ht : takeTurn m s = .next t) :
    t.Inv := by
  cases m with
  | host => exact hostTurn_inv h ht
  | sink => cases ht; exact sinkTurn_inv h
  | rstAssert => cases ht; exact assertReset_inv s
  | rstAssertWithWrite =>
    obtain ⟨u, rfl⟩ := assertResetWithWrite_cases ht
    exact assertReset_inv u
  | rstRelease => cases ht; exact releaseReset_inv h

/-- Settles O12: each agent's move keeps the invariant, and taking the turn off the list touches nothing
of the block. -/
theorem everyStepKeepsTheInvariant : Obligations.EveryStepKeepsTheInvariant := by
  intro s t h ht
  cases hturns : s.turns with
  | nil =>
    rw [step_nil hturns] at ht
    cases ht
    exact h
  | cons m rest =>
    rw [step_cons hturns] at ht
    exact takeTurn_inv (h.with_environment h.held_none) ht

/-! ### Reachable states and reset values -/

theorem reset_resetValues : State.reset.ResetValues := ⟨rfl, rfl, rfl, rfl, rfl, rfl, rfl⟩

/-- Settles O11: the values of R34, with a buffer of 1024 cells and no write held. -/
theorem resetMeetsTheInvariant : Obligations.ResetMeetsTheInvariant :=
  reset_resetValues.inv (unspecifiedCells_length 0) fun _ => rfl

theorem run_inv {s t : State} {k : Nat} (h : s.Inv)
    (hrun : Host.Core.run Sys2Proof.core k s = .next t) : t.Inv := by
  induction k generalizing s with
  | zero =>
    rw [run_zero] at hrun
    cases hrun
    exact h
  | succ k ih =>
    obtain ⟨u, hstep, hrest⟩ := run_succ_next hrun
    exact ih (everyStepKeepsTheInvariant s u h hstep) hrest

/-- Settles O13: a run from power-on keeps the invariant, of which R35 is a part. -/
theorem statusInvariantInEveryReachableState :
    Obligations.StatusInvariantInEveryReachableState := by
  intro k program schedule t hrun
  have hstart : { State.reset with host := program, turns := schedule }.Inv :=
    State.Inv.with_environment resetMeetsTheInvariant fun _ => rfl
  exact (run_inv hstart hrun).toRegisterInvariant

/-- Settles O6: power-on, a released RST and a soft reset each assign the values of R34. -/
theorem resetLeavesResetValues : Obligations.ResetLeavesResetValues :=
  ⟨reset_resetValues, fun _ => ⟨rfl, rfl, rfl, rfl, rfl, rfl, rfl⟩, softReset_resetValues⟩

/-! ### The CRC: commands that leave it alone -/

/-- The state a piece of execution has got to, whether it ran or waits. -/
def Flow.state : Flow → State
  | .ran s => s
  | .waits s => s

@[simp] theorem settle_crc (f : Flow) : (settle f).crc = f.state.crc := by cases f <;> rfl

theorem append_crc (l : List Sample) (s : State) : (append l s).state.crc = s.crc := by
  rcases append_cases l s with ⟨-, he⟩ | ⟨r, -, -, he⟩ | ⟨-, -, he⟩ <;> rw [he] <;> rfl

theorem flushBuffer_crc (s : State) : (flushBuffer s).state.crc = s.crc := by
  rcases flushBuffer_cases s with ⟨-, he⟩ | ⟨r, -, -, he⟩ | ⟨-, -, he⟩ <;> rw [he] <;> rfl

theorem repeatAppend_crc (l : List Sample) (left k : Nat) (s : State) :
    (repeatUnits (fun _ => append l) left k s).state.crc = s.crc := by
  rcases repeatUnits_spec (unit := fun _ => append l) (fun _ u => u.crc = s.crc) left k s rfl
    (by
      intro j u v _ _ hu ha
      have hcrc := append_crc l u
      rw [ha] at hcrc
      exact hcrc.trans hu) with ⟨t, ht, hp⟩ | ⟨j, u, v, -, -, hu, ha, hr⟩
  · rw [ht]
    exact hp
  · have hcrc := append_crc l u
    rw [ha] at hcrc
    rw [hr]
    exact hcrc.trans hu

theorem exec_crc_of_no_fold {i : Instr} (hi : isSynthesizer i = true ∨ i = .nop ∨ i = .flush)
    {s t : State} (h : exec i s = .next t) : t.crc = s.crc := by
  rw [exec_eq_resume] at h
  cases h
  rw [settle_crc]
  cases i with
  | nop => rfl
  | symBit b => exact append_crc _ _
  | symPreamble n => exact repeatAppend_crc _ _ _ _
  | symSync => exact append_crc _ _
  | symSilence => exact repeatAppend_crc _ _ _ _
  | flush => exact flushBuffer_crc _
  | crcReset | crcBit b | frBit b | frByte v | frWord v | frCrcWord => simp [isSynthesizer] at hi

/-! ### The CRC: completed commands -/

/-- The rule for a drain: what every sink's turn of a busy state keeps holds where the drain ends. -/
theorem drain_induction {P : State → Prop} (hturn : ∀ s, P s → s.busy = true → P (sinkTurn s))
    (k : Nat) {s : State} (h : P s) : P (drain k s) := by
  induction k generalizing s with
  | zero => exact h
  | succ k ih =>
    unfold drain
    split
    · exact ih (hturn s h ‹_›)
    · exact h

/-- The block is idle, or waits for the sink, and with the bits it still owes its CRC will be `r`. -/
structure State.FoldsTo (r : Crc) (s : State) : Prop where
  settled : s.Idle ∨ ∃ c, s.WaitsOn c
  fold : crcFold s.crc s.owedBits = r

theorem State.Advances.foldsTo {s t : State} {c : InFlight} {r : Crc} (h : s.Advances c t)
    (hr : crcFold s.crc s.owedBits = r) : t.FoldsTo r :=
  ⟨h.settled.imp_right fun ⟨_, hj⟩ => ⟨_, hj⟩, h.fold.trans hr⟩

theorem sinkTurn_foldsTo {r : Crc} {s : State} (h : s.FoldsTo r) (hb : s.busy = true) :
    (sinkTurn s).FoldsTo r := by
  rcases h.settled with hi | ⟨c, hc⟩
  · simp [hi.busy] at hb
  · exact hc.sinkTurn_advances.foldsTo h.fold

theorem exec_foldsTo {s t : State} {i : Instr} (h : s.Idle) (he : exec i s = .next t) :
    t.FoldsTo (crcAfter s.crc i) := by
  rcases Nat.eq_zero_or_pos (waitPoints i) with h0 | hpos
  · rw [exec_of_waitPoints_zero h0] at he
    cases he
    exact ⟨.inl ⟨⟨h.ob_wf, h.occ_le⟩, rfl, rfl, h.pend⟩, rfl⟩
  · obtain ⟨u, hu, hadv⟩ := h.exec_advances hpos
    rw [hu] at he
    cases he
    have hi : i ≠ .crcReset := by
      rintro rfl
      simp [waitPoints] at hpos
    refine hadv.foldsTo ?_
    simp [State.owedBits, foldedBits_start, crcAfter, hi]

theorem Completes.crc {i : Instr} {s t : State} (h : Completes i s t) (hs : s.Idle) :
    t.crc = crcAfter s.crc i := by
  obtain ⟨u, k, he, rfl, hb⟩ := h
  have hend := drain_induction (fun _ => sinkTurn_foldsTo) k (exec_foldsTo hs he)
  rcases hend.settled with hi | ⟨c, hc⟩
  · rw [← hend.fold, State.owedBits, hi.cur]
    rfl
  · simp [hc.busy] at hb

/-! ### The CRC: register writes -/

/-- The writes of the window that are not refused, by their offset (R51, R194). -/
theorem access_write_cases {s t : State} {off : Nat} {v : Word}
    (h : access (.write 32 off v) s = .next t) :
    (off = 0x00 ∧ writeCmd v s = .next t) ∨ ((off = 0x04 ∨ off = 0x08) ∧ t = s) ∨
      (off = 0x0C ∧ t = writeCtrl v s) := by
  simp only [access] at h
  split at h
  case h_2 => cases h
  case h_1 r hreg =>
    simp only [registerAt, if_pos] at hreg
    split at hreg <;> cases hreg
    · exact .inl ⟨rfl, h⟩
    · cases h; exact .inr (.inl ⟨.inl rfl, rfl⟩)
    · cases h; exact .inr (.inl ⟨.inr rfl, rfl⟩)
    · cases h; exact .inr (.inr ⟨rfl, rfl⟩)

theorem writeCtrl_crc (v : Word) (s : State) :
    (writeCtrl v s).crc = s.crc ∨ (v.getLsbD 0 = true ∧ (writeCtrl v s).crc = 0x0000#16) := by
  unfold writeCtrl
  split
  next hv => exact .inr ⟨hv, rfl⟩
  next => exact .inl rfl

/-- Settles O35, by its four clauses: the bodies that make no fold, the completed commands, the register
writes, and the two resets. -/
theorem crcChangesOnlyByItsCommands : Obligations.CrcChangesOnlyByItsCommands := by
  refine ⟨fun i s t hi he => exec_crc_of_no_fold hi he,
    fun i s t hs hb _ hc => hc.crc (hs.idle hb), fun s t off v hoff ha => ?_,
    fun s => ⟨rfl, rfl⟩⟩
  rcases access_write_cases ha with ⟨h0, -⟩ | ⟨-, rfl⟩ | ⟨rfl, rfl⟩
  · exact absurd h0 hoff
  · exact .inl rfl
  · exact (writeCtrl_crc v s).imp_right fun ⟨hv, hcrc⟩ => ⟨rfl, hv, hcrc⟩

end Sys2Proof.Machine
end

section
/-! PROOFS. The accesses the window defines, the staging buffer and the sink (20_memory.md).

`step_move` says once what a step of any agent does to the samples; the statements about every step are
read off its four cases. Two facts about a command's body carry them: `State.promised`, the samples
produced and those still owed, is the same after any piece of a body, and a property that each shared
operation keeps is kept by every body (`KeptByBody`), which bounds the chunks. -/

namespace Sys2Proof.Machine

/-! ### The accesses the window defines -/

theorem registerAt_isSome_iff {width offset : Nat} :
    (registerAt width offset).isSome = true ↔ width = 32 ∧ offset % 4 = 0 ∧ offset < 0x10 := by
  unfold registerAt
  split
  next hw =>
    split
    case h_5 h0 h4 h8 hC =>
      simp only [Option.isSome_none, Bool.false_eq_true, false_iff]
      rintro ⟨-, halign, hlt⟩
      have hoff : offset = 0x00 ∨ offset = 0x04 ∨ offset = 0x08 ∨ offset = 0x0C := by omega
      rcases hoff with h | h | h | h
      · exact h0 h
      · exact h4 h
      · exact h8 h
      · exact hC h
    all_goals simp [hw]
  next hw => simp [hw]

section
variable {width offset : Nat}

theorem access_read_at {r : Register} (h : registerAt width offset = some r) (s : State) :
    access (.read width offset) s = .next (regRead r s) := by
  simp [access, h]

theorem access_write_at {r : Register} (h : registerAt width offset = some r) (v : Word) (s : State) :
    access (.write width offset v) s = regWrite r v s := by
  simp [access, h]

theorem access_read_undefined (h : registerAt width offset = none) (s : State) :
    access (.read width offset) s = .refused .undefinedAccess := by
  simp [access, h]

theorem access_write_undefined (h : registerAt width offset = none) (v : Word) (s : State) :
    access (.write width offset v) s = .refused .undefinedAccess := by
  simp [access, h]

end

theorem exec_next (i : Instr) (s : State) : ∃ t, exec i s = .next t := ⟨_, exec_eq_resume i s⟩

theorem onCmdWrite_next (w : Word) (s : State) : ∃ t, onCmdWrite w s = .next t := by
  rcases onCmdWrite_cases w s with ⟨-, he⟩ | ⟨-, e, -, he⟩ | ⟨-, i, -, he⟩
  · exact ⟨_, he⟩
  · exact ⟨_, he⟩
  · exact he ▸ exec_next i _

/-- No register's write is refused. -/
theorem regWrite_next (r : Register) (v : Word) (s : State) : ∃ t, regWrite r v s = .next t := by
  cases r with
  | cmd =>
    cases hb : s.busy with
    | true => exact ⟨{ s with held := some v }, by simp [regWrite, writeCmd, hb]⟩
    | false => simpa [regWrite, writeCmd, hb] using onCmdWrite_next v s
  | status => exact ⟨s, rfl⟩
  | crcr => exact ⟨s, rfl⟩
  | ctrl => exact ⟨writeCtrl v s, rfl⟩

/-- Settles O21: the window has a register at exactly the aligned 32-bit places, and no register's read or
write is refused. -/
theorem onlyAlignedWordAccessesAreDefined : Obligations.OnlyAlignedWordAccessesAreDefined := by
  intro width offset v s
  refine ⟨fun h => ?_, fun h => ?_⟩
  · obtain ⟨r, hr⟩ := Option.isSome_iff_exists.mp (registerAt_isSome_iff.mpr h)
    exact ⟨⟨_, access_read_at hr s⟩, access_write_at hr v s ▸ regWrite_next r v s⟩
  · have hr : registerAt width offset = none :=
      Option.not_isSome_iff_eq_none.mp (mt registerAt_isSome_iff.mp h)
    exact ⟨access_read_undefined hr s, access_write_undefined hr v s⟩

/-! ### The shared operations -/

/-- Settles O36, by the three cases of an append. -/
theorem appendDeliversOnOverflow : Obligations.AppendDeliversOnOverflow := by
  intro l s _ hl
  refine ⟨fun hfit => append_fits hfit, fun hover => ⟨by omega, fun r hr => ?_, fun hr => ?_⟩⟩
  · rw [append_overflows hover hr]
    simp [State.copyIn, State.delivering, State.acceptChunk, State.buffered, writeCells]
  · exact append_waits hover hr

/-! ### What a step does to the samples -/

/-- `s` with the error flags, the agents and the model's counters put to fixed values: what is left is all
that bears on the samples. -/
def State.sampleSide (s : State) : State :=
  { s with err := false, errCode := 0, held := none, cmdIndex := 0, sinkReady := 0, host := [],
           turns := [], reads := [], draws := 0 }

section
variable {s t : State}

theorem busy_of_sampleSide (h : t.sampleSide = s.sampleSide) : t.busy = s.busy :=
  (congrArg State.busy h :)

theorem pend_of_sampleSide (h : t.sampleSide = s.sampleSide) : t.pend = s.pend :=
  (congrArg State.pend h :)

theorem delivered_of_sampleSide (h : t.sampleSide = s.sampleSide) : t.delivered = s.delivered :=
  (congrArg State.delivered h :)

end

/-- What a step from `s` to `t` does to the samples. -/
inductive State.Move (s t : State) : Prop where
  /-- Nothing: buffer, stream, offer and command in flight are as they were. -/
  | kept (same : t.sampleSide = s.sampleSide)
  /-- A reset, which leaves the accepted stream. -/
  | reset (cause : s.ResetMove) (values : t.ResetValues) (delivered : t.delivered = s.delivered)
  /-- The host's turn in an idle state without error executes a command word (R192). -/
  | executed (w : Word) (i : Instr) (rest : List Turn) (held : Option Word) (cmdIndex : Nat)
      (host : List Access) (turn : s.turns = .host :: rest) (busy : s.busy = false)
      (err : s.err = false) (rst : s.rst = false) (decoded : decode w = .ok i)
      (source : s.held = some w ∨ ∃ as, s.host = .write 32 0x00 w :: as)
      (run : exec i { s with held := held, cmdIndex := cmdIndex, host := host, turns := rest } = .next t)
  /-- The sink takes the chunk on offer, and the command in flight goes on (R57). -/
  | taken (c : List Sample) (rest : List Turn) (turn : s.turns = .sink :: rest)
      (offer : s.pend = some c) (run : t = sinkTurn { s with turns := rest })

/-- A command word not executed touches no sample. -/
theorem onCmdWrite_kept_or_executed {w : Word} {s t : State} (h : onCmdWrite w s = .next t) :
    t.sampleSide = s.sampleSide ∨
      s.err = false ∧ ∃ i, decode w = .ok i ∧ exec i { s with cmdIndex := s.cmdIndex + 1 } = .next t := by
  rcases onCmdWrite_cases w s with ⟨-, he⟩ | ⟨-, e, -, he⟩ | ⟨herr, i, hd, he⟩ <;> rw [he] at h
  · cases h; exact .inl rfl
  · cases h; exact .inl rfl
  · exact .inr ⟨herr, i, hd, h⟩

theorem access_write_width {width offset : Nat} {v : Word} {s t : State}
    (h : access (.write width offset v) s = .next t) : width = 32 := by
  cases hr : registerAt width offset with
  | none => simp [access_write_undefined hr] at h
  | some r =>
    obtain ⟨hw, -⟩ := registerAt_isSome_iff.mp (by rw [hr]; rfl)
    exact hw

/-- What a host's access that is not refused does to the samples: nothing, unless it is a CMD write to an
idle block or a CTRL write that resets. -/
theorem access_kept_or_written {a : Access} {s t : State} (h : access a s = .next t) :
    t.sampleSide = s.sampleSide ∨
      (∃ w, a = .write 32 0x00 w ∧ s.busy = false ∧ onCmdWrite w s = .next t) ∨
      ∃ v, a = .write 32 0x0C v ∧ v.getLsbD 0 = true ∧ t = softReset s := by
  cases a with
  | read width offset =>
    cases hr : registerAt width offset with
    | none => simp [access_read_undefined hr] at h
    | some r =>
      rw [access_read_at hr] at h
      cases h
      obtain ⟨v, d, he⟩ := regRead_frame r s
      exact .inl (by rw [he]; rfl)
  | write width offset v =>
    obtain rfl := access_write_width h
    rcases access_write_cases h with ⟨rfl, hw⟩ | ⟨-, rfl⟩ | ⟨rfl, rfl⟩
    · cases hb : s.busy with
      | true =>
        obtain rfl : { s with held := some v } = t := by simpa [writeCmd, hb] using hw
        exact .inl rfl
      | false => exact .inr (.inl ⟨v, rfl, rfl, by simpa [writeCmd, hb] using hw⟩)
    · exact .inl rfl
    · by_cases hv : v.getLsbD 0 = true
      · exact .inr (.inr ⟨v, rfl, hv, if_pos hv⟩)
      · exact .inl (congrArg State.sampleSide (if_neg hv))

theorem hostTurn_move {s t : State} {rest : List Turn} (hturn : s.turns = .host :: rest)
    (h : hostTurn { s with turns := rest } = .next t) : s.Move t := by
  rcases hostTurn_cases h with rfl | ⟨w, hheld, hrst, hbusy, hw⟩ | ⟨a, as, hfree, hnext, hrst, ha⟩
  · exact .kept rfl
  · rcases onCmdWrite_kept_or_executed hw with hk | ⟨herr, i, hd, he⟩
    · exact .kept hk
    · exact .executed w i rest _ _ _ hturn hbusy herr hrst hd (.inl hheld) he
  · rcases access_kept_or_written ha with hk | ⟨w, rfl, hbusy, hw⟩ | ⟨v, rfl, hv, rfl⟩
    · exact .kept hk
    · rcases onCmdWrite_kept_or_executed hw with hk | ⟨herr, i, hd, he⟩
      · exact .kept hk
      · exact .executed w i rest _ _ _ hturn hbusy herr hrst hd (.inr ⟨as, hnext⟩) he
    · exact .reset (.ctrlWritten rest v as hturn hfree hnext hv) (softReset_resetValues _) rfl

theorem assertReset_resetValues (s : State) : (assertReset s).ResetValues :=
  ⟨rfl, rfl, rfl, rfl, rfl, rfl, rfl⟩

theorem assertResetWithWrite_delivered {s t : State} (h : assertResetWithWrite s = .next t) :
    t.delivered = s.delivered := by
  unfold assertResetWithWrite at h
  split at h
  · cases h; rfl
  · cases h; rfl
  · split at h
    · split at h <;> cases h
      rfl
    · cases h

theorem sinkTurn_move {s : State} {rest : List Turn} (hturn : s.turns = .sink :: rest) :
    s.Move (sinkTurn { s with turns := rest }) := by
  rcases Option.eq_none_or_eq_some s.pend with hp | ⟨c, hp⟩
  · exact .kept (by simp [sinkTurn, hp, State.sampleSide])
  · exact .taken c rest hturn hp rfl

theorem releaseReset_move {s : State} {rest : List Turn} (hturn : s.turns = .rstRelease :: rest) :
    s.Move (releaseReset { s with turns := rest }) := by
  by_cases hr : s.rst = true
  · have hrel : releaseReset { s with turns := rest } =
        { softReset { s with turns := rest } with rst := false } := if_pos hr
    rw [hrel]
    exact .reset (.rstReleased rest hturn hr) ⟨rfl, rfl, rfl, rfl, rfl, rfl, rfl⟩ rfl
  · have hrel : releaseReset { s with turns := rest } = { s with turns := rest } := if_neg hr
    rw [hrel]
    exact .kept rfl

/-- Everything a step can do to the samples. -/
theorem step_move {s t : State} (h : step s = .next t) : s.Move t := by
  cases hturns : s.turns with
  | nil =>
    rw [step_nil hturns] at h
    cases h
    exact .kept rfl
  | cons m rest =>
    rw [step_cons hturns] at h
    cases m with
    | host => exact hostTurn_move hturns h
    | sink => cases h; exact sinkTurn_move hturns
    | rstAssert =>
      cases h
      exact .reset (.rstAsserted rest hturns) (assertReset_resetValues _) rfl
    | rstAssertWithWrite =>
      have hd := assertResetWithWrite_delivered h
      obtain ⟨u, rfl⟩ := assertResetWithWrite_cases h
      exact .reset (.rstAssertedWithWrite rest hturns) (assertReset_resetValues u) hd
    | rstRelease => cases h; exact releaseReset_move hturns

/-! ### The samples produced and owed -/

/-- Every sample produced, followed by those the command in flight has still to append (R58, R26). -/
def State.promised (s : State) : List Sample := s.output ++ s.owed

theorem promised_of_sampleSide {s t : State} (h : t.sampleSide = s.sampleSide) :
    t.promised = s.promised :=
  (congrArg State.promised h :)

theorem promised_of_cur_none {s : State} (h : s.cur = none) : s.promised = s.output := by
  simp [State.promised, State.owed, h]

theorem promised_of_cur_some {s : State} {c : InFlight} (h : s.cur = some c) :
    s.promised = s.output ++ ((appendUnits c.snapshot c.cmd).drop c.done).flatten := by
  simp [State.promised, State.owed, h]

/-- A command has a wait point for each of its appends. -/
theorem appendUnits_length_le (crc : Crc) (i : Instr) : (appendUnits crc i).length ≤ waitPoints i := by
  cases i <;> simp [appendUnits, waitPoints]

/-- A command's body, run from `s` to its end or its next wait, appends what it no longer owes. -/
theorem State.Running.promised_settle {s : State} {c : InFlight} {f : Flow} (h : s.Running c)
    (hr : Runs f (appendUnits c.snapshot c.cmd) (foldedBits c.snapshot c.cmd) s c.done
      (waitPoints c.cmd)) : (settle f).promised = s.promised := by
  rw [promised_of_cur_some h.cur]
  rcases hr with ⟨t, rfl, hp⟩ | ⟨j, u, -, -, rfl, hp, -, -⟩
  · rw [promised_of_cur_none (settle_ran_cur t), ← hp.samples,
      List.drop_of_length_le (appendUnits_length_le _ _)]
    exact (List.append_nil _).symm
  · have hcur : (u.offering.withProgress j).cur = some { c with done := j } := by
      simp [hp.cur, h.cur]
    rw [settle_waits, promised_of_cur_some hcur, ← hp.samples]
    rfl

theorem sinkTurn_of_offer {s : State} {f : InFlight} {c : List Sample} (hp : s.pend = some c)
    (hc : s.cur = some f) : sinkTurn s = settle (resumeBody f (s.acceptChunk c)) := by
  simp [sinkTurn, hp, resume, hc]

theorem State.WaitsOn.promised_sinkTurn {s : State} {c : InFlight} (h : s.WaitsOn c) :
    (sinkTurn s).promised = s.promised := by
  rw [sinkTurn_of_offer h.pend h.cur,
    h.running.promised_settle (h.running.resumeBody_runs h.at_wait_point),
    promised_of_cur_some h.running.cur, promised_of_cur_some h.cur, acceptChunk_output]

theorem State.Idle.promised_exec {s t : State} {i : Instr} (h : s.Idle) (he : exec i s = .next t) :
    t.promised = s.promised ++ rendering s.crc i := by
  rw [promised_of_cur_none h.cur]
  rcases Nat.eq_zero_or_pos (waitPoints i) with h0 | hpos
  · rw [exec_of_waitPoints_zero h0] at he
    cases he
    have hnil : appendUnits s.crc i = [] :=
      List.eq_nil_of_length_eq_zero (Nat.le_zero.mp (h0 ▸ appendUnits_length_le s.crc i))
    rw [promised_of_cur_none rfl, rendering, hnil]
    exact (List.append_nil _).symm
  · rw [exec_eq_resume] at he
    cases he
    have hrun := h.running i (startSnapshot s i)
    rw [hrun.promised_settle (hrun.resumeBody_runs ⟨hpos, startSnapshot_ok s i⟩),
      promised_of_cur_some hrun.cur, appendUnits_start]
    rfl

/-! ### Every step -/

theorem State.Inv.waitsOn_of_pend {s : State} {c : List Sample} (h : s.Inv) (hp : s.pend = some c) :
    ∃ f, s.WaitsOn f := by
  cases hb : s.busy with
  | true =>
    obtain ⟨f, hf, -⟩ := h.waitsOn hb
    exact ⟨f, hf⟩
  | false => simp [(h.idle hb).pend] at hp

theorem State.Idle.with_host {s : State} (h : s.Idle) (held : Option Word) (cmdIndex : Nat)
    (host : List Access) (turns : List Turn) :
    { s with held := held, cmdIndex := cmdIndex, host := host, turns := turns }.Idle :=
  ⟨⟨h.ob_wf, h.occ_le⟩, h.busy, h.cur, h.pend⟩

theorem State.ResetValues.output {s : State} (h : s.ResetValues) : s.output = s.stream := by
  simp [State.output, State.buffered, h.occ]

/-- Settles O41, by the four things a step can do to the samples. -/
theorem everyStepConservesSamples : Obligations.EveryStepConservesSamples := by
  intro s t hs hstep
  cases step_move hstep with
  | kept same => exact .inr (.inl (promised_of_sampleSide same))
  | reset cause values delivered =>
    exact .inl ⟨cause, values, values.output.trans (congrArg List.flatten delivered)⟩
  | executed w i rest held cmdIndex host turn busy err rst decoded source run =>
    have hi := (hs.idle busy).with_host held cmdIndex host rest
    exact .inr (.inr ⟨rest, w, i, turn, busy, err, rst, decoded, source, hi.promised_exec run⟩)
  | taken c rest turn offer run =>
    subst run
    have hs' : { s with turns := rest }.Inv := hs.with_environment hs.held_none
    obtain ⟨f, hf⟩ := hs'.waitsOn_of_pend offer
    exact .inr (.inl hf.promised_sinkTurn)

/-! ### Completed commands -/

/-- A command that completes leaves the block idle, with its samples and nothing else added. -/
theorem Completes.idle_output {i : Instr} {s t : State} (h : Completes i s t) (hs : s.Idle) :
    t.Idle ∧ t.output = s.output ++ rendering s.crc i := by
  obtain ⟨u, k, he, rfl, hb⟩ := h
  have hend := drain_induction
    (P := fun v => v.FoldsTo (crcAfter s.crc i) ∧ v.promised = s.promised ++ rendering s.crc i)
    (by
      rintro v ⟨hv, hp⟩ hvb
      refine ⟨sinkTurn_foldsTo hv hvb, ?_⟩
      rcases hv.settled with hi | ⟨c, hc⟩
      · simp [hi.busy] at hvb
      · rw [hc.promised_sinkTurn, hp])
    k ⟨exec_foldsTo hs he, hs.promised_exec he⟩
  obtain ⟨hfold, hp⟩ := hend
  rcases hfold.settled with hi | ⟨c, hc⟩
  · rw [promised_of_cur_none hi.cur, promised_of_cur_none hs.cur] at hp
    exact ⟨hi, hp⟩
  · simp [hc.busy] at hb

theorem CompletesAll.idle_output {is : List Instr} {s t : State} (h : CompletesAll is s t)
    (hs : s.Idle) : t.Idle ∧ t.output = s.output ++ renderingAll s.crc is := by
  induction is generalizing s with
  | nil =>
    obtain rfl : s = t := h
    exact ⟨hs, by simp [renderingAll]⟩
  | cons i is ih =>
    obtain ⟨u, hu, hrest⟩ := h
    obtain ⟨hidle, hout⟩ := hu.idle_output hs
    obtain ⟨ht, htout⟩ := ih hrest hidle
    exact ⟨ht, by rw [htout, hout, hu.crc hs, renderingAll, List.append_assoc]⟩

/-- Settles O40, by induction on the list of commands. -/
theorem completedCommandsConserveSamples : Obligations.CompletedCommandsConserveSamples := by
  intro is s t hs hb _ _ hc
  obtain ⟨hidle, hout⟩ := hc.idle_output (hs.idle hb)
  exact ⟨hidle.busy, hout⟩

/-! ### What every shared operation keeps, every body keeps -/

/-- `P` is kept by each operation that the body of `i` is made of; no list appended is longer than the
sync tone (R55). -/
structure KeptByBody (i : Instr) (P : State → Prop) : Prop where
  append : ∀ {l : List Sample} {u : State}, l.length ≤ 34 → P u → P (append l u).state
  set_crc : ∀ {u : State} (crc : Crc), P u → P { u with crc := crc }
  progress : ∀ {u : State} (k : Nat), P u → P (u.withProgress k)
  flush : i = .flush → ∀ {u : State}, P u → P (flushBuffer u).state

section
variable {i : Instr} {P : State → Prop}

theorem KeptByBody.repeatUnits (h : KeptByBody i P) {unit : Nat → State → Flow}
    (hunit : ∀ j u, P u → P (unit j u).state) (left k : Nat) {s : State} (hs : P s) :
    P (repeatUnits unit left k s).state := by
  rcases repeatUnits_spec (unit := unit) (fun _ => P) left k s hs
    (by
      intro j u v _ _ hu hv
      have hnext := hunit j u hu
      rwa [hv] at hnext) with ⟨t, ht, hp⟩ | ⟨j, u, v, -, -, hu, hv, hr⟩
  · rw [ht]
    exact hp
  · have hwait := hunit j u hu
    rw [hv] at hwait
    rw [hr]
    exact h.progress j hwait

theorem bitSymbol_length_le (b : Bool) : (bitSymbol b).length ≤ 34 := by
  rw [bitSymbol_length]
  split <;> omega

theorem KeptByBody.emitBit (h : KeptByBody i P) (b : Bool) {s : State} (hs : P s) :
    P (emitBit b s).state := by
  have happend := h.append (bitSymbol_length_le b) hs
  rcases emitBit_cases b s with ⟨u, hu, he⟩ | ⟨u, hu, he⟩ <;> rw [hu] at happend <;> rw [he]
  · exact h.set_crc _ happend
  · exact happend

theorem KeptByBody.emitBitsFrom (h : KeptByBody i P) (bits : List Bool) (k : Nat) {s : State}
    (hs : P s) : P (emitBitsFrom bits k s).state :=
  h.repeatUnits (fun _ _ => h.emitBit _) _ _ hs

theorem KeptByBody.resumeBody {c : InFlight} (h : KeptByBody c.cmd P) {s : State} (hs : P s) :
    P (resumeBody c s).state := by
  obtain ⟨cmd, k, w⟩ := c
  cases cmd with
  | nop => exact hs
  | symBit b => exact h.append (bitSymbol_length_le b) hs
  | symPreamble n => exact h.repeatUnits (fun _ _ => h.append (by simp)) _ _ hs
  | symSync => exact h.append (by simp) hs
  | symSilence => exact h.repeatUnits (fun _ _ => h.append (by simp)) _ _ hs
  | crcReset => exact h.set_crc _ hs
  | crcBit b => exact h.set_crc _ hs
  | frBit b => exact h.emitBit b hs
  | frByte v => exact h.emitBitsFrom _ k hs
  | frWord v => exact h.emitBitsFrom _ k hs
  | frCrcWord => exact h.emitBitsFrom _ k hs
  | flush => exact h.flush rfl hs

end

/-! ### The stream only grows -/

/-- The stream of `t` begins with that of `s` (R57). -/
def State.StreamGrows (s t : State) : Prop := ∃ later, t.delivered = s.delivered ++ later

theorem streamGrows_delivering {s u : State} (h : s.StreamGrows u) (r : Nat) :
    s.StreamGrows (u.delivering r) := by
  obtain ⟨later, hl⟩ := h
  exact ⟨later ++ [u.buffered], by simp [hl]⟩

theorem State.StreamGrows.settle {s : State} {f : Flow} (h : s.StreamGrows f.state) :
    s.StreamGrows (settle f) := by
  cases f with
  | ran u => exact h
  | waits u => exact h

theorem streamGrows_kept (s : State) (i : Instr) : KeptByBody i s.StreamGrows where
  append {l u} _ h := by
    rcases append_cases l u with ⟨-, he⟩ | ⟨r, -, -, he⟩ | ⟨-, -, he⟩ <;> rw [he]
    · exact h
    · exact streamGrows_delivering h r
    · exact h
  set_crc _ h := h
  progress _ h := h
  flush _ u h := by
    rcases flushBuffer_cases u with ⟨-, he⟩ | ⟨r, -, -, he⟩ | ⟨-, -, he⟩ <;> rw [he]
    · exact h
    · exact streamGrows_delivering h r
    · exact h

theorem sinkTurn_takes {s : State} {c : List Sample} (hp : s.pend = some c) :
    ∃ later, (sinkTurn s).delivered = s.delivered ++ [c] ++ later := by
  have hstart : (s.acceptChunk c).StreamGrows (s.acceptChunk c) := ⟨[], (List.append_nil _).symm⟩
  cases hc : s.cur with
  | none => exact ⟨[], by simp [sinkTurn, hp, resume, hc]⟩
  | some f =>
    rw [sinkTurn_of_offer hp hc]
    exact ((streamGrows_kept _ _).resumeBody hstart).settle

/-- Settles O37: delivery to a sink that is not ready is the offer itself; the sink's turn puts the chunk
first and only then goes on with the command; and of the host's moves from a busy state only a reset
touches the samples. -/
theorem sinkAcceptsTheOfferedChunk : Obligations.SinkAcceptsTheOfferedChunk := by
  refine ⟨fun s hz => ?_, fun s c rest hturn hp => ?_, fun s t rest _ hb hturn hstep => ?_⟩
  · rcases deliver_cases s with ⟨r, hr, -⟩ | ⟨-, he⟩
    · simp [hz] at hr
    · exact he
  · obtain ⟨later, hl⟩ := sinkTurn_takes (s := { s with turns := rest }) hp
    exact ⟨_, later, step_sink hturn, hl⟩
  · cases step_move hstep with
    | kept same =>
      exact .inr ⟨(busy_of_sampleSide same).trans hb, pend_of_sampleSide same,
        delivered_of_sampleSide same⟩
    | reset cause values _ => exact .inl ⟨cause, values⟩
    | executed _ _ _ _ _ _ _ busy => simp [hb] at busy
    | taken _ _ turn => simp [hturn] at turn

/-! ### The sizes of chunks -/

/-- A chunk of `lo` to 1024 samples. -/
def ChunkOf (lo : Nat) (c : List Sample) : Prop := lo ≤ c.length ∧ c.length ≤ 1024

/-- The fewest samples in a chunk of the command: what is left of the buffer where the longest list, the
sync tone, does not fit, and one sample for FLUSH (R59). -/
def minChunk (i : Instr) : Nat := if i = .flush then 1 else 991

theorem minChunk_pos (i : Instr) : 1 ≤ minChunk i := by
  unfold minChunk
  split <;> omega

/-- From `s` to `t` the stream grows by chunks of `lo` to 1024 samples, and so is the one on offer. -/
structure State.Delivers (lo : Nat) (s t : State) : Prop extends t.BufferOk where
  chunks : ∃ cs, t.delivered = s.delivered ++ cs ∧ ∀ c ∈ cs, ChunkOf lo c
  offer : ∀ c, t.pend = some c → ChunkOf lo c

theorem delivers_start {lo : Nat} {s : State} (hb : s.BufferOk) (hp : s.pend = none) :
    s.Delivers lo s :=
  ⟨hb, ⟨[], by simp⟩, by simp [hp]⟩

section
variable {lo : Nat} {s u : State}

theorem State.Delivers.buffered (h : s.Delivers lo u) (hlo : lo ≤ u.occ) : ChunkOf lo u.buffered := by
  rw [ChunkOf, buffered_length (h.ob_wf ▸ h.occ_le)]
  exact ⟨hlo, h.occ_le⟩

theorem State.Delivers.copyIn (h : s.Delivers lo u) {l : List Sample} (hl : u.occ + l.length ≤ 1024) :
    s.Delivers lo (u.copyIn l) :=
  ⟨⟨by simp [writeCells_length, h.ob_wf, hl], by simpa using hl⟩, h.chunks, h.offer⟩

theorem State.Delivers.delivering (h : s.Delivers lo u) (hlo : lo ≤ u.occ) (r : Nat) :
    s.Delivers lo (u.delivering r) := by
  obtain ⟨cs, hcs, hsize⟩ := h.chunks
  refine ⟨⟨h.ob_wf, by simp⟩, ⟨cs ++ [u.buffered], by simp [hcs], fun c hc => ?_⟩, by simp⟩
  rcases List.mem_append.mp hc with hmem | hmem
  · exact hsize c hmem
  · obtain rfl := List.mem_singleton.mp hmem
    exact h.buffered hlo

theorem State.Delivers.offering (h : s.Delivers lo u) (hlo : lo ≤ u.occ) :
    s.Delivers lo u.offering := by
  refine ⟨⟨h.ob_wf, h.occ_le⟩, h.chunks, fun c hc => ?_⟩
  obtain rfl := Option.some.inj hc
  exact h.buffered hlo

/-- A list of at most 34 samples that does not fit finds 991 samples buffered or more. -/
theorem State.Delivers.append (h : s.Delivers lo u) (hlo : lo ≤ 991) {l : List Sample}
    (hl : l.length ≤ 34) : s.Delivers lo (append l u).state := by
  rcases append_cases l u with ⟨hfit, he⟩ | ⟨r, hover, -, he⟩ | ⟨hover, -, he⟩ <;> rw [he]
  · exact h.copyIn hfit
  · exact (h.delivering (by omega) r).copyIn (by simp; omega)
  · exact h.offering (by omega)

theorem State.Delivers.flushBuffer (h : s.Delivers 1 u) : s.Delivers 1 (flushBuffer u).state := by
  rcases flushBuffer_cases u with ⟨-, he⟩ | ⟨r, hpos, -, he⟩ | ⟨hpos, -, he⟩ <;> rw [he]
  · exact h
  · exact h.delivering hpos r
  · exact h.offering hpos

end

theorem State.Delivers.settle {lo : Nat} {s : State} {f : Flow} (h : s.Delivers lo f.state) :
    s.Delivers lo (settle f) := by
  cases f with
  | ran u => exact ⟨⟨h.ob_wf, h.occ_le⟩, h.chunks, h.offer⟩
  | waits u => exact h

theorem delivers_kept (s : State) (i : Instr) : KeptByBody i (s.Delivers (minChunk i)) where
  append hl h := h.append (by unfold minChunk; split <;> omega) hl
  set_crc _ h := ⟨⟨h.ob_wf, h.occ_le⟩, h.chunks, h.offer⟩
  progress _ h := ⟨⟨h.ob_wf, h.occ_le⟩, h.chunks, h.offer⟩
  flush hi _ h := by
    subst hi
    exact h.flushBuffer

/-- A command's body, from a state with nothing on offer to its end or its next wait. -/
theorem settle_resumeBody_delivers {s : State} (c : InFlight) (hb : s.BufferOk) (hp : s.pend = none) :
    s.Delivers (minChunk c.cmd) (settle (resumeBody c s)) :=
  ((delivers_kept s c.cmd).resumeBody (delivers_start hb hp)).settle

theorem State.Idle.exec_delivers {s t : State} {i : Instr} (h : s.Idle) (he : exec i s = .next t) :
    s.Delivers (minChunk i) t := by
  rw [exec_eq_resume] at he
  cases he
  have hrun := h.running i (startSnapshot s i)
  obtain ⟨hok, hchunks, hoffer⟩ :=
    settle_resumeBody_delivers ⟨i, 0, startSnapshot s i⟩ hrun.toBufferOk hrun.pend
  exact ⟨hok, hchunks, hoffer⟩

theorem sinkTurn_delivers {s : State} {f : InFlight} {c : List Sample} (hb : s.BufferOk)
    (hp : s.pend = some c) (hc : s.cur = some f) :
    (s.acceptChunk c).Delivers (minChunk f.cmd) (sinkTurn s) := by
  rw [sinkTurn_of_offer hp hc]
  exact settle_resumeBody_delivers f ⟨hb.ob_wf, Nat.zero_le _⟩ rfl

theorem ChunkOf.pos {i : Instr} {c : List Sample} (h : ChunkOf (minChunk i) c) : ChunkOf 1 c :=
  ⟨(minChunk_pos i).trans h.1, h.2⟩

/-- Settles O38: a step that touches the samples delivers the chunk on offer, if there is one, and then
what the command's body delivers. -/
theorem deliveredChunksOnlyGrow : Obligations.DeliveredChunksOnlyGrow := by
  intro s t hs hstep
  cases step_move hstep with
  | kept same =>
    exact ⟨⟨[], by simp [delivered_of_sampleSide same]⟩,
      fun c hc => hs.pend_size c (pend_of_sampleSide same ▸ hc)⟩
  | reset _ values delivered => exact ⟨⟨[], by simp [delivered]⟩, by simp [values.pend]⟩
  | executed w i rest held cmdIndex host turn busy err rst decoded source run =>
    have hi := (hs.idle busy).with_host held cmdIndex host rest
    obtain ⟨-, ⟨cs, hcs, hsize⟩, hoffer⟩ := hi.exec_delivers run
    exact ⟨⟨cs, hcs, fun c hc => (hsize c hc).pos⟩, fun c hc => (hoffer c hc).pos⟩
  | taken c rest turn offer run =>
    subst run
    have hs' : { s with turns := rest }.Inv := hs.with_environment hs.held_none
    obtain ⟨f, hf⟩ := hs'.waitsOn_of_pend offer
    obtain ⟨-, ⟨cs, hcs, hsize⟩, hoffer⟩ := sinkTurn_delivers hf.toBufferOk offer hf.cur
    refine ⟨⟨c :: cs, by simp [hcs], fun d hd => ?_⟩, fun d hd => (hoffer d hd).pos⟩
    rcases List.mem_cons.mp hd with rfl | hmem
    · exact hs.pend_size d offer
    · exact (hsize d hmem).pos

theorem minChunk_of_ne_flush {i : Instr} (h : i ≠ .flush) : minChunk i = 991 := if_neg h

/-- Settles O39: the bounds of every body's chunks, where the command starts and where it goes on. -/
theorem chunkSizes : Obligations.ChunkSizes := by
  refine ⟨fun i s t hs hb hi he => ?_, fun s f c hs hc hf hp => ?_, fun s t hs hb he => ?_⟩
  · obtain ⟨-, hchunks, hoffer⟩ := minChunk_of_ne_flush hi ▸ (hs.idle hb).exec_delivers he
    exact ⟨hchunks, hoffer⟩
  · obtain ⟨-, hchunks, hoffer⟩ :=
      minChunk_of_ne_flush hf ▸ sinkTurn_delivers ⟨hs.ob_wf, hs.occ_le_cap⟩ hp hc
    exact ⟨hchunks, hoffer⟩
  · obtain ⟨-, hchunks, hoffer⟩ := (hs.idle hb).exec_delivers he
    exact ⟨hchunks, hoffer⟩

end Sys2Proof.Machine
end

section
/-! PROOFS. The encoding (30_encoding.md): the decoder, the encoder and the assembler.

A command is described by its opcode, its format and the number its operand stands for. `encode_toNat`
reads the encoder in these terms and `decode_eq_checkReserved` the decoder; a word is accepted where the
bits its format reserves are 0 (`reserved_clear_iff`). The round trip and the words of each command are
arithmetic on these three. -/

namespace Sys2Proof

/-! ### A command as numbers -/

/-- The width of a format's operand (R81). -/
def Format.operandBits : Format → Nat
  | .A => 0
  | .B => 1
  | .C => 8
  | .W => 16
  | .N => 24

theorem Format.operandBits_lt (fmt : Format) : fmt.operandBits < 28 := by
  cases fmt <;> decide

/-- The opcode of a command (R83). -/
def Instr.opcode : Instr → Nat
  | .nop => 0x0
  | .symBit _ => 0x1
  | .symPreamble _ => 0x2
  | .symSync => 0x3
  | .symSilence => 0x4
  | .crcReset => 0x5
  | .crcBit _ => 0x6
  | .frBit _ => 0x7
  | .frByte _ => 0x8
  | .frWord _ => 0x9
  | .frCrcWord => 0xA
  | .flush => 0xB

/-- The format of a command (R83). -/
def Instr.format : Instr → Format
  | .nop | .symSync | .symSilence | .crcReset | .frCrcWord | .flush => .A
  | .symBit _ | .crcBit _ | .frBit _ => .B
  | .frByte _ => .C
  | .frWord _ => .W
  | .symPreamble _ => .N

/-- The number a command's operand stands for, 0 for a command without one (R82). -/
def Instr.operand : Instr → Nat
  | .symBit b | .crcBit b | .frBit b => b.toNat
  | .symPreamble n => n
  | .frByte v => v.toNat
  | .frWord v => v.toNat
  | .nop | .symSync | .symSilence | .crcReset | .frCrcWord | .flush => 0

theorem opcodeFormat_opcode (i : Instr) : opcodeFormat i.opcode = some i.format := by
  cases i <;> rfl

theorem opcodeFormat_eq_none {op : Nat} (h : 0xC ≤ op) : opcodeFormat op = none := by
  unfold opcodeFormat
  split
  case h_13 => rfl
  all_goals omega

theorem Instr.operand_lt {i : Instr} (h : i.wellFormed = true) :
    i.operand < 2 ^ i.format.operandBits := by
  cases i with
  | symBit b | crcBit b | frBit b => exact b.toNat_lt
  | symPreamble n => exact of_decide_eq_true h
  | frByte v => exact v.isLt
  | frWord v => exact v.isLt
  | nop | symSync | symSilence | crcReset | frCrcWord | flush => exact Nat.one_pos

/-- Every operand in the range of an opcode's format belongs to a command. -/
theorem exists_instr_of_fields {op n : Nat} {fmt : Format} (hop : opcodeFormat op = some fmt)
    (hn : n < 2 ^ fmt.operandBits) :
    ∃ i : Instr, i.wellFormed = true ∧ i.opcode = op ∧ i.format = fmt ∧ i.operand = n := by
  have none_of (h : n < 1) : 0 = n := by omega
  have bit_of (h : n < 2) : (decide (n = 1)).toNat = n := by
    obtain rfl | rfl : n = 0 ∨ n = 1 := by omega
    all_goals rfl
  unfold opcodeFormat at hop
  split at hop
  all_goals cases hop
  case h_1 => exact ⟨.nop, rfl, rfl, rfl, none_of hn⟩
  case h_2 => exact ⟨.symBit (decide (n = 1)), rfl, rfl, rfl, bit_of hn⟩
  case h_3 => exact ⟨.symPreamble n, decide_eq_true hn, rfl, rfl, rfl⟩
  case h_4 => exact ⟨.symSync, rfl, rfl, rfl, none_of hn⟩
  case h_5 => exact ⟨.symSilence, rfl, rfl, rfl, none_of hn⟩
  case h_6 => exact ⟨.crcReset, rfl, rfl, rfl, none_of hn⟩
  case h_7 => exact ⟨.crcBit (decide (n = 1)), rfl, rfl, rfl, bit_of hn⟩
  case h_8 => exact ⟨.frBit (decide (n = 1)), rfl, rfl, rfl, bit_of hn⟩
  case h_9 => exact ⟨.frByte (BitVec.ofNat 8 n), rfl, rfl, rfl, Nat.mod_eq_of_lt hn⟩
  case h_10 => exact ⟨.frWord (BitVec.ofNat 16 n), rfl, rfl, rfl, Nat.mod_eq_of_lt hn⟩
  case h_11 => exact ⟨.frCrcWord, rfl, rfl, rfl, none_of hn⟩
  case h_12 => exact ⟨.flush, rfl, rfl, rfl, none_of hn⟩

/-! ### The encoder and the fields of a word -/

/-- The layout of every command word: the opcode on top, zeros, and the operand below (R81). -/
theorem toNat_fields {k n : Nat} (op : BitVec 4) (v : BitVec n) :
    (op ++ 0#k ++ v).toNat = op.toNat * 2 ^ (k + n) + v.toNat := by
  rw [BitVec.toNat_append, BitVec.toNat_append, BitVec.toNat_ofNat, Nat.zero_mod, Nat.or_zero,
    ← Nat.shiftLeft_add_eq_or_of_lt v.isLt, ← Nat.shiftLeft_add, Nat.shiftLeft_eq]

theorem encode_toNat {i : Instr} (h : i.wellFormed = true) :
    (encode i).toNat = i.opcode * 2 ^ 28 + i.operand := by
  cases i with
  | symBit b | crcBit b | frBit b => cases b <;> simp [encode, Instr.opcode, Instr.operand]
  | symPreamble n =>
    have hn : n < 2 ^ 24 := of_decide_eq_true h
    rw [encode, Instr.opcode, Instr.operand]
    exact (toNat_fields 0x2#4 _).trans (congrArg _ (Nat.mod_eq_of_lt hn))
  | frByte v =>
    rw [encode, Instr.opcode, Instr.operand]
    exact toNat_fields 0x8#4 v
  | frWord v =>
    rw [encode, Instr.opcode, Instr.operand]
    exact toNat_fields 0x9#4 v
  | nop | symSync | symSilence | crcReset | frCrcWord | flush =>
    simp [encode, Instr.opcode, Instr.operand]

theorem opField_toNat (w : Word) : (opField w).toNat = w.toNat / 2 ^ 28 := by
  have hw := w.isLt
  simp only [opField, BitVec.extractLsb'_toNat, Nat.shiftRight_eq_div_pow]
  omega

/-- A format reserves the bits between its operand and the opcode (R81). -/
theorem reservedMask_getLsbD (fmt : Format) :
    ∀ j < 32, (reservedMask fmt).getLsbD j = decide (fmt.operandBits ≤ j ∧ j < 28) := by
  cases fmt <;> decide

theorem reserved_clear_iff (fmt : Format) (w : Word) :
    w &&& reservedMask fmt = 0#32 ↔ w.toNat % 2 ^ 28 < 2 ^ fmt.operandBits := by
  constructor
  · intro h
    refine Nat.lt_pow_two_of_testBit _ fun j hj => ?_
    rw [Nat.testBit_mod_two_pow, BitVec.testBit_toNat, Bool.and_eq_false_imp]
    intro hlt
    have hlt : j < 28 := of_decide_eq_true hlt
    have hbit := congrArg (·.getLsbD j) h
    simpa [reservedMask_getLsbD fmt j (by omega), hj, hlt] using hbit
  · intro h
    refine BitVec.eq_of_getLsbD_eq fun j hj => ?_
    rw [BitVec.getLsbD_and, reservedMask_getLsbD fmt j hj, BitVec.getLsbD_zero]
    by_cases hmask : fmt.operandBits ≤ j ∧ j < 28
    · have hbit := Nat.testBit_lt_two_pow
        (h.trans_le (Nat.pow_le_pow_right Nat.two_pos hmask.1))
      rw [Nat.testBit_mod_two_pow, BitVec.testBit_toNat] at hbit
      simpa [hmask] using hbit
    · simp [hmask]

/-- Where the reserved bits are 0, a word is its opcode and its operand. -/
theorem mod_operandBits_of_clear {fmt : Format} {w : Word}
    (h : w.toNat % 2 ^ 28 < 2 ^ fmt.operandBits) :
    w.toNat % 2 ^ fmt.operandBits = w.toNat % 2 ^ 28 := by
  rw [← Nat.mod_mod_of_dvd _ (Nat.pow_dvd_pow 2 fmt.operandBits_lt.le), Nat.mod_eq_of_lt h]

/-! ### The decoder -/

theorem bitOperand_eq {w : Word} {b : Bool} (h : w.toNat % 2 = b.toNat) : bitOperand w = b := by
  cases b <;> simp_all [bitOperand, BitVec.getLsbD, Nat.testBit_zero]

theorem byteOperand_eq {w : Word} {v : BitVec 8} (h : w.toNat % 2 ^ 8 = v.toNat) :
    byteOperand w = v :=
  BitVec.eq_of_toNat_eq (by simpa [byteOperand] using h)

theorem wordOperand_eq {w : Word} {v : BitVec 16} (h : w.toNat % 2 ^ 16 = v.toNat) :
    wordOperand w = v :=
  BitVec.eq_of_toNat_eq (by simpa [wordOperand] using h)

theorem countOperand_eq {w : Word} {n : Nat} (h : w.toNat % 2 ^ 24 = n) : countOperand w = n := by
  simpa [countOperand] using h

/-- A word with the opcode and the operand of `i` decodes to `i`, up to its reserved bits (R86). -/
theorem decode_eq_checkReserved {w : Word} {i : Instr} (hop : w.toNat / 2 ^ 28 = i.opcode)
    (hv : w.toNat % 2 ^ i.format.operandBits = i.operand) :
    decode w = checkReserved i.format w i := by
  rw [← opField_toNat] at hop
  cases i with
  | symBit b | crcBit b | frBit b =>
    simp only [decode, hop, Instr.opcode, Instr.format, bitOperand_eq hv]
  | symPreamble n =>
    simp only [decode, hop, Instr.opcode, Instr.format, countOperand_eq hv, Instr.operand]
  | frByte v => simp only [decode, hop, Instr.opcode, Instr.format, byteOperand_eq hv]
  | frWord v => simp only [decode, hop, Instr.opcode, Instr.format, wordOperand_eq hv]
  | nop | symSync | symSilence | crcReset | frCrcWord | flush =>
    simp only [decode, hop, Instr.opcode, Instr.format]

theorem decode_of_no_format {w : Word} (h : opcodeFormat (w.toNat / 2 ^ 28) = none) :
    decode w = .error .illegalOpcode := by
  rw [← opField_toNat] at h
  unfold decode
  split
  case h_13 => rfl
  all_goals simp [*, opcodeFormat] at h

/-- A word with a defined opcode decodes to the command that its fields name, if the bits its format
reserves are 0 (R86). -/
theorem exists_decode_eq_checkReserved {w : Word} {fmt : Format}
    (h : opcodeFormat (w.toNat / 2 ^ 28) = some fmt) :
    ∃ i : Instr, i.wellFormed = true ∧ i.opcode = w.toNat / 2 ^ 28 ∧ i.format = fmt ∧
      i.operand = w.toNat % 2 ^ fmt.operandBits ∧ decode w = checkReserved fmt w i := by
  obtain ⟨i, hwf, hop, rfl, hv⟩ :=
    exists_instr_of_fields h (Nat.mod_lt w.toNat (Nat.two_pow_pos _))
  exact ⟨i, hwf, hop, rfl, hv, decode_eq_checkReserved hop.symm hv.symm⟩

theorem checkReserved_eq_ok_iff {fmt : Format} {w : Word} {i j : Instr} :
    checkReserved fmt w i = .ok j ↔ w &&& reservedMask fmt = 0#32 ∧ i = j := by
  unfold checkReserved
  split <;> simp [*]

theorem decode_of_reserved_set {w : Word} {fmt : Format}
    (hfmt : opcodeFormat (w.toNat / 2 ^ 28) = some fmt) (h : w &&& reservedMask fmt ≠ 0#32) :
    decode w = .error .reservedField := by
  obtain ⟨i, -, -, -, -, hd⟩ := exists_decode_eq_checkReserved hfmt
  rw [hd, checkReserved, if_neg h]

/-! ### The round trip -/

/-- Settles O2: the fields of a command's encoding are its opcode and its operand, and the bits
between them are 0. -/
theorem decodeOfEncodeIsTheCommand : Obligations.DecodeOfEncodeIsTheCommand := by
  intro i hwf
  have hnum := encode_toNat hwf
  have hlt := Instr.operand_lt hwf
  have hpow : 2 ^ i.format.operandBits < 2 ^ 28 :=
    Nat.pow_lt_pow_right Nat.one_lt_two i.format.operandBits_lt
  have hop : (encode i).toNat / 2 ^ 28 = i.opcode := by omega
  have hlow : (encode i).toNat % 2 ^ 28 = i.operand := by omega
  have hclear : (encode i).toNat % 2 ^ 28 < 2 ^ i.format.operandBits := hlow.trans_lt hlt
  rw [decode_eq_checkReserved hop ((mod_operandBits_of_clear hclear).trans hlow),
    checkReserved_eq_ok_iff]
  exact ⟨(reserved_clear_iff _ _).mpr hclear, rfl⟩

/-- Settles O3: the fields of an accepted word are those of its command, and so is the word. -/
theorem acceptedWordIsItsCommandsEncoding : Obligations.AcceptedWordIsItsCommandsEncoding := by
  intro w i h
  have hwf := Machine.wellFormed_of_decode h
  refine ⟨hwf, BitVec.eq_of_toNat_eq ?_⟩
  cases hfmt : opcodeFormat (w.toNat / 2 ^ 28) with
  | none => simp [decode_of_no_format hfmt] at h
  | some fmt =>
    obtain ⟨j, -, hop, rfl, hv, hd⟩ := exists_decode_eq_checkReserved hfmt
    rw [hd, checkReserved_eq_ok_iff, reserved_clear_iff] at h
    obtain ⟨hclear, rfl⟩ := h
    rw [encode_toNat hwf, hop, hv, mod_operandBits_of_clear hclear, Nat.div_add_mod']

/-- The two directions in one. -/
theorem decode_eq_ok_iff {w : Word} {i : Instr} (h : i.wellFormed = true) :
    decode w = .ok i ↔ w = encode i := by
  constructor
  · exact fun hd => (acceptedWordIsItsCommandsEncoding w i hd).2.symm
  · rintro rfl
    exact decodeOfEncodeIsTheCommand i h

/-! ### The words of each command -/

/-- An opcode's commands take up the words from the one with operand 0 on, one word per operand of the
opcode's format (R85). -/
theorem decode_opcode_iff {op : Nat} {fmt : Format} (hop : opcodeFormat op = some fmt) (w : Word) :
    (∃ i : Instr, i.opcode = op ∧ decode w = .ok i) ↔
      op * 2 ^ 28 ≤ w.toNat ∧ w.toNat < op * 2 ^ 28 + 2 ^ fmt.operandBits := by
  constructor
  · rintro ⟨i, rfl, hd⟩
    obtain ⟨hwf, rfl⟩ := acceptedWordIsItsCommandsEncoding w i hd
    obtain rfl := Option.some.inj ((opcodeFormat_opcode i).symm.trans hop)
    rw [encode_toNat hwf]
    exact ⟨Nat.le_add_right _ _, Nat.add_lt_add_left (Instr.operand_lt hwf) _⟩
  · rintro ⟨hle, hlt⟩
    obtain ⟨i, hwf, rfl, -, hv⟩ :=
      exists_instr_of_fields hop (Nat.sub_lt_left_of_lt_add hle hlt)
    refine ⟨i, rfl, (decode_eq_ok_iff hwf).mpr (BitVec.eq_of_toNat_eq ?_)⟩
    rw [encode_toNat hwf, hv, Nat.add_sub_cancel' hle]

theorem opcode_eq_frByte_iff (i : Instr) : i.opcode = 0x8 ↔ ∃ v, i = .frByte v := by
  cases i <;> simp [Instr.opcode]

theorem opcode_eq_frWord_iff (i : Instr) : i.opcode = 0x9 ↔ ∃ v, i = .frWord v := by
  cases i <;> simp [Instr.opcode]

theorem opcode_eq_symPreamble_iff (i : Instr) : i.opcode = 0x2 ↔ ∃ n, i = .symPreamble n := by
  cases i <;> simp [Instr.opcode]

namespace Machine

theorem onCmdWrite_of_decode_error {w : Word} {s : State} {e : CmdError} (herr : s.err = false)
    (hd : decode w = .error e) :
    onCmdWrite w s = .next { s with
      cmdIndex := s.cmdIndex + 1, err := true, errCode := cmdErrorCode e } := by
  simp [onCmdWrite, herr, hd, raiseCmdError]

/-- Settles O4: the opcodes from 0xC on have no format, and the command error is raised. -/
theorem reservedOpcodeIsRejected : Obligations.ReservedOpcodeIsRejected := by
  intro w s hop
  have hd := decode_of_no_format (opcodeFormat_eq_none hop)
  exact ⟨hd, fun herr => onCmdWrite_of_decode_error herr hd⟩

/-- Settles O5: the words of a command are its encodings, by the round trip. -/
theorem reservedFieldIsRejected : Obligations.ReservedFieldIsRejected := by
  refine ⟨fun w fmt s hfmt hset => ?_, fun w => ⟨?symBit, ?crcBit, ?frBit, ?frByte, ?frWord,
    ?symPreamble, decode_eq_ok_iff rfl, decode_eq_ok_iff rfl, decode_eq_ok_iff rfl,
    decode_eq_ok_iff rfl, decode_eq_ok_iff rfl, decode_eq_ok_iff rfl⟩⟩
  · have hd := decode_of_reserved_set hfmt hset
    exact ⟨hd, fun herr => onCmdWrite_of_decode_error herr hd⟩
  case symBit =>
    exact (exists_congr fun b => decode_eq_ok_iff (i := .symBit b) rfl).trans Bool.exists_bool
  case crcBit =>
    exact (exists_congr fun b => decode_eq_ok_iff (i := .crcBit b) rfl).trans Bool.exists_bool
  case frBit =>
    exact (exists_congr fun b => decode_eq_ok_iff (i := .frBit b) rfl).trans Bool.exists_bool
  case frByte =>
    simpa [opcode_eq_frByte_iff, Format.operandBits] using decode_opcode_iff (op := 0x8) rfl w
  case frWord =>
    simpa [opcode_eq_frWord_iff, Format.operandBits] using decode_opcode_iff (op := 0x9) rfl w
  case symPreamble =>
    simpa [opcode_eq_symPreamble_iff, Format.operandBits] using decode_opcode_iff (op := 0x2) rfl w

/-- Settles O1: the legal words are encodings, and the others meet the decoder's two rejections. -/
theorem sampleWordsDecode : Obligations.SampleWordsDecode :=
  ⟨decodeOfEncodeIsTheCommand .nop rfl,
    decode_of_reserved_set (fmt := .A) rfl (by decide),
    decodeOfEncodeIsTheCommand (.symBit true) rfl,
    decodeOfEncodeIsTheCommand (.symPreamble 10240) rfl,
    decodeOfEncodeIsTheCommand (.crcBit true) rfl,
    decodeOfEncodeIsTheCommand (.frByte 0x6A#8) rfl,
    decodeOfEncodeIsTheCommand (.frWord 0xFFFF#16) rfl,
    decodeOfEncodeIsTheCommand .flush rfl,
    decode_of_no_format rfl⟩

/-! ### The assembler -/

theorem inRange_eq_ok_iff {bound v : Nat} {commands is : List Instr} :
    inRange bound v commands = .ok is ↔ v < bound ∧ commands = is := by
  unfold inRange
  split <;> simp [*]

theorem expandString_eq_ok_iff {bytes : List (BitVec 8)} {is : List Instr} :
    expandString bytes = .ok is ↔
      bytes.length ≤ 10 ∧ .frByte (BitVec.ofNat 8 bytes.length) :: bytes.map .frByte = is := by
  unfold expandString
  split <;> simp_all [Config.fnameMax]

/-- Only a preamble's count can fail `Instr.wellFormed`, and the assembler bounds it (R88). -/
theorem assembleLine_wellFormed {line : AsmLine} {is : List Instr} (h : assembleLine line = .ok is) :
    ∀ i ∈ is, i.wellFormed = true := by
  cases line with
  | nop | symSync | symSil | crcReset | frCrc | flush | frSyncmark =>
    cases h
    decide
  | symPre n =>
    obtain ⟨hn, rfl⟩ := inRange_eq_ok_iff.mp h
    simpa [Instr.wellFormed, Instr.countInRange] using hn
  | symBit n | crcBit n | frBit n | frByte n | frWord n =>
    obtain ⟨-, rfl⟩ := inRange_eq_ok_iff.mp h
    simp [Instr.wellFormed, Instr.countInRange]
  | frString bytes =>
    obtain ⟨-, rfl⟩ := expandString_eq_ok_iff.mp h
    simp [Instr.wellFormed, Instr.countInRange]

theorem assembleLines_cons_eq_ok_iff {line : AsmLine} {rest : List AsmLine} {is : List Instr} :
    assembleLines (line :: rest) = .ok is ↔
      ∃ first more, assembleLine line = .ok first ∧ assembleLines rest = .ok more ∧
        first ++ more = is := by
  simp only [assembleLines]
  cases assembleLine line <;> cases assembleLines rest <;> simp

theorem assembleLines_wellFormed {lines : List AsmLine} {is : List Instr}
    (h : assembleLines lines = .ok is) : ∀ i ∈ is, i.wellFormed = true := by
  induction lines generalizing is with
  | nil =>
    cases h
    simp
  | cons line rest ih =>
    obtain ⟨first, more, hfirst, hmore, rfl⟩ := assembleLines_cons_eq_ok_iff.mp h
    intro i hi
    exact (List.mem_append.mp hi).elim (assembleLine_wellFormed hfirst i) (ih hmore i)

theorem assemble_eq_ok {text : List Char} {words : List Word} (h : assemble text = .ok words) :
    ∃ lines is, assembleLines lines = .ok is ∧ is.map encode = words := by
  unfold assemble at h
  split at h
  · cases h
  · split at h
    · cases h
    · exact ⟨_, _, by assumption, Except.ok.inj h⟩

/-- Settles O60: an assembled word is the encoding of a well-formed command. -/
theorem assemblerEmitsOnlyLegalWords : Obligations.AssemblerEmitsOnlyLegalWords := by
  intro text words h w hw
  obtain ⟨lines, is, his, rfl⟩ := assemble_eq_ok h
  obtain ⟨i, hi, rfl⟩ := List.mem_map.mp hw
  have hwf := assembleLines_wellFormed his i hi
  exact ⟨i, decodeOfEncodeIsTheCommand i hwf, hwf⟩

/-- Settles O58, by the bound of `expandString`. -/
theorem stringPseudoInstruction : Obligations.StringPseudoInstruction :=
  fun _ => ⟨fun h => expandString_eq_ok_iff.mpr ⟨h, rfl⟩, fun h => if_neg (Nat.not_le.mpr h)⟩

/-- Settles O59: the expansion and its three encodings are fixed. -/
theorem syncmarkPseudoInstruction : Obligations.SyncmarkPseudoInstruction := ⟨rfl, rfl⟩

end Machine

end Sys2Proof
end

section
/-! PROOFS. The synthesizer (40_synthesizer.md): its symbols, its words, and what each of its commands
appends.

A command of one append meets the append's three cases (`exec_append_cases`). A command of equal appends
fills the buffer up to the first list that does not fit (`RoomFor`); there it waits, or goes on with the
buffer empty (`repeatAppend_delivers`). `exec_repeatAppend_fits`, `exec_repeatAppend_waits`,
`exec_repeatAppend_completes` and `exec_repeatAppend_interrupted` say once where such a command ends and
where it waits; SYM_PREAMBLE and SYM_SILENCE are read off them. -/

namespace Sys2Proof.Machine

/-! ### The symbols -/

theorem shape_length (bits : List Bool) :
    (shape bits).length = (bits.map fun b => if b = true then 16 else 24).sum := by
  rw [shape, List.length_flatMap]
  exact congrArg List.sum (List.map_congr_left fun b _ => bitSymbol_length b)

theorem shape_length_add_popcount (bits : List Bool) :
    (shape bits).length + 8 * popcount bits = 24 * bits.length := by
  induction bits with
  | nil => rfl
  | cons b bits ih =>
    have hcons : shape (b :: bits) = bitSymbol b ++ shape bits := rfl
    rw [hcons, List.length_append, bitSymbol_length]
    cases b <;> simp [popcount] at ih ⊢ <;> omega

theorem rendering_symPreamble_length (crc : Crc) (n : Nat) :
    (rendering crc (.symPreamble n)).length = 18 * n := by
  simp [rendering, appendUnits, List.length_flatten, Nat.mul_comm]

theorem rendering_symSilence_length (crc : Crc) :
    (rendering crc .symSilence).length = 44100 := by
  simp only [rendering, appendUnits, List.flatten_replicate_singleton, List.length_replicate]
  rfl

/-- Settles O48: a completed command has added its rendering, and the rendering's length is the sum of
its symbols' lengths. -/
theorem sampleCountsOfSymbols : Obligations.SampleCountsOfSymbols := by
  refine ⟨fun s t hs hb _ => ?_, fun bits hbits => ⟨shape_length bits, ?_⟩⟩
  · have added (i : Instr) (h : Completes i s t) :
        t.output.length = s.output.length + (rendering s.crc i).length := by
      rw [(h.idle_output (hs.idle hb)).2, List.length_append]
    refine ⟨fun h => ?_, fun h => ?_, fun n _ h => ?_, fun h => ?_, fun h => ?_⟩
    · simpa [rendering, appendUnits, bitSymbol_length] using added _ h
    · simpa [rendering, appendUnits, bitSymbol_length] using added _ h
    · rw [added _ h, rendering_symPreamble_length]
    · simpa [rendering, appendUnits] using added _ h
    · rw [added _ h, rendering_symSilence_length]
  · rw [shape_length_add_popcount, hbits]

/-- Settles O49: a tone's one period is its symbol, so its frequency follows from the symbol's
length. -/
theorem toneFrequenciesAtPlayback : Obligations.ToneFrequenciesAtPlayback := by
  refine ⟨?_, ?_, ?_, ?_, List.length_replicate⟩
  · rw [toneFrequency, symbolBit0_length, Config.sampleRate]; norm_num
  · rw [toneFrequency, symbolBit1_length, Config.sampleRate]; norm_num
  · rw [toneFrequency, symbolPre_length, Config.sampleRate]; norm_num
  · rw [toneFrequency, symbolSync_length, Config.sampleRate]; norm_num

/-! ### The words -/

/-- An opcode's other words are those past its format's largest operand (R85). -/
theorem rejectsOtherWords {op : Nat} {fmt : Format} {legal : Word → Prop}
    (hop : opcodeFormat op = some fmt)
    (hlegal : ∀ w : Word, op * 2 ^ 28 ≤ w.toNat → w.toNat < op * 2 ^ 28 + 2 ^ fmt.operandBits →
      legal w) : RejectsOtherWords op legal := by
  intro w hw hnot
  refine decode_of_reserved_set (hw ▸ hop) fun hclear => hnot (hlegal w ?_ ?_)
  · omega
  · have hlow := (reserved_clear_iff fmt w).mp hclear
    omega

/-- An opcode without operand has one word (R81). -/
theorem rejectsOtherWords_of_formatA {op : Nat} {word : Word} (hop : opcodeFormat op = some .A)
    (hword : word.toNat = op * 2 ^ 28) : RejectsOtherWords op (· = word) := by
  refine rejectsOtherWords hop fun w hle hlt => BitVec.eq_of_toNat_eq ?_
  simp only [Format.operandBits] at hlt
  omega

/-! ### One append -/

theorem exec_symBit (b : Bool) (s : State) :
    exec (.symBit b) s = .next (settle (append (bitSymbol b) (s.accept (.symBit b) 0))) := rfl

theorem exec_symSync (s : State) :
    exec .symSync s = .next (settle (append symbolSync (s.accept .symSync 0))) := rfl

/-- What a command of one append does, given the length of its list. -/
theorem exec_append_cases {i : Instr} {s : State} {l : List Sample} {len : Nat}
    (he : exec i s = .next (settle (append l (s.accept i 0)))) (hl : l.length = len) :
    (s.occ + len ≤ 1024 → exec i s = .next { s with
      ob := writeCells s.ob s.occ l, occ := s.occ + len, cur := none, busy := false }) ∧
    (1024 < s.occ + len →
      (∀ r, s.sinkReady = r + 1 → exec i s = .next { s with
        ob := writeCells s.ob 0 l, occ := len, delivered := s.delivered ++ [s.buffered],
        sinkReady := r, pend := none, cur := none, busy := false }) ∧
      (s.sinkReady = 0 → exec i s = .next { s with
        pend := some s.buffered, busy := true, cur := some ⟨i, 0, 0⟩ })) := by
  subst hl
  rw [he]
  refine ⟨fun h => ?_, fun h => ⟨fun r hr => ?_, fun hr => ?_⟩⟩
  · rw [append_fits (s := s.accept i 0) h]
    rfl
  · rw [append_overflows (s := s.accept i 0) h hr, ← Nat.zero_add l.length]
    rfl
  · rw [append_waits (s := s.accept i 0) h hr]
    rfl

/-- Settles O43, by the three cases of an append. -/
theorem symBitRendersOneSymbol : Obligations.SymBitRendersOneSymbol := by
  refine ⟨decodeOfEncodeIsTheCommand (.symBit false) rfl,
    decodeOfEncodeIsTheCommand (.symBit true) rfl,
    rejectsOtherWords (fmt := .B) rfl fun w hle hlt => ?_, fun b s => ?_⟩
  · simp only [Format.operandBits] at hlt
    bv_omega
  · cases b with
    | false => exact exec_append_cases (exec_symBit false s) symbolBit0_length
    | true => exact exec_append_cases (exec_symBit true s) symbolBit1_length

/-- Settles O45, by the three cases of an append. -/
theorem symSyncRendersOneTone : Obligations.SymSyncRendersOneTone := by
  refine ⟨decodeOfEncodeIsTheCommand .symSync rfl,
    rejectsOtherWords_of_formatA rfl rfl, fun s => ?_⟩
  obtain ⟨hfits, hover⟩ := exec_append_cases (exec_symSync s) symbolSync_length
  exact ⟨fun h => hfits (by omega), fun h => hover (by omega)⟩

/-! ### A command goes on alike whatever the CRC and the error flags are -/

/-- `s` with other values of the three elements no synthesizer command uses (R116). -/
def State.withCrcErr (crc : Crc) (err : Bool) (errCode : BitVec 4) (s : State) : State :=
  { s with crc := crc, err := err, errCode := errCode }

/-- A state's change, applied to the state a piece of execution has got to. -/
def Flow.map (f : State → State) : Flow → Flow
  | .ran s => .ran (f s)
  | .waits s => .waits (f s)

section
variable (crc : Crc) (err : Bool) (errCode : BitVec 4)

theorem settle_withCrcErr (f : Flow) :
    settle (f.map (.withCrcErr crc err errCode)) = (settle f).withCrcErr crc err errCode := by
  cases f <;> rfl

theorem append_withCrcErr (l : List Sample) (s : State) :
    append l (s.withCrcErr crc err errCode) = (append l s).map (.withCrcErr crc err errCode) := by
  rcases append_cases l s with ⟨hle, he⟩ | ⟨r, hlt, hr, he⟩ | ⟨hlt, hr, he⟩ <;> rw [he]
  · exact append_fits (s := s.withCrcErr crc err errCode) hle
  · exact append_overflows (s := s.withCrcErr crc err errCode) hlt hr
  · exact append_waits (s := s.withCrcErr crc err errCode) hlt hr

theorem repeatAppend_withCrcErr (l : List Sample) (left k : Nat) (s : State) :
    repeatUnits (fun _ => append l) left k (s.withCrcErr crc err errCode) =
      (repeatUnits (fun _ => append l) left k s).map (.withCrcErr crc err errCode) := by
  induction left generalizing k s with
  | zero => rfl
  | succ left ih =>
    rw [repeatUnits, repeatUnits, append_withCrcErr]
    cases append l s with
    | ran u => exact ih (k + 1) u
    | waits u => rfl

theorem resumeBody_withCrcErr {c : InFlight} (hc : isSynthesizer c.cmd = true) (s : State) :
    resumeBody c (s.withCrcErr crc err errCode) =
      (resumeBody c s).map (.withCrcErr crc err errCode) := by
  obtain ⟨cmd, k, w⟩ := c
  cases cmd with
  | symBit b => exact append_withCrcErr _ _ _ _ _
  | symPreamble n => exact repeatAppend_withCrcErr _ _ _ _ _ _ _
  | symSync => exact append_withCrcErr _ _ _ _ _
  | symSilence => exact repeatAppend_withCrcErr _ _ _ _ _ _ _
  | nop | crcReset | crcBit b | frBit b | frByte v | frWord v | frCrcWord | flush =>
    simp [isSynthesizer] at hc

theorem settle_resumeBody_withCrcErr {c : InFlight} (hc : isSynthesizer c.cmd = true) (s : State) :
    settle (resumeBody c (s.withCrcErr crc err errCode)) =
      (settle (resumeBody c s)).withCrcErr crc err errCode := by
  rw [resumeBody_withCrcErr _ _ _ hc, settle_withCrcErr]

theorem sinkTurn_withCrcErr {s : State} {f : InFlight} (hf : s.cur = some f)
    (hc : isSynthesizer f.cmd = true) :
    sinkTurn (s.withCrcErr crc err errCode) = (sinkTurn s).withCrcErr crc err errCode := by
  cases hp : s.pend with
  | none =>
    rw [sinkTurn, sinkTurn, State.withCrcErr, hp]
    rfl
  | some c =>
    rw [sinkTurn_of_offer hp hf, sinkTurn_of_offer (s := s.withCrcErr crc err errCode) hp hf]
    exact settle_resumeBody_withCrcErr crc err errCode hc (s.acceptChunk c)

end

/-- A synthesizer command takes no snapshot of the CRC (42_framer.md R163). -/
theorem exec_synthesizer {i : Instr} (hi : isSynthesizer i = true) (s : State) :
    exec i s = .next (settle (resumeBody ⟨i, 0, 0⟩ (s.accept i 0))) := by
  have hsnap : startSnapshot s i = 0 := if_neg fun h => by simp [h, isSynthesizer] at hi
  rw [exec_eq_resume, hsnap]

/-- A move that commutes with a change of CRC, ERR and ERRCODE commutes with the change to the values
they have, and so leaves them as they are. -/
theorem crcErr_kept {s t : State} (h : t = t.withCrcErr s.crc s.err s.errCode) :
    t.crc = s.crc ∧ t.err = s.err ∧ t.errCode = s.errCode :=
  ⟨(congrArg State.crc h :), (congrArg State.err h :), (congrArg State.errCode h :)⟩

/-- Settles O47: every append commutes with a change of CRC, ERR and ERRCODE, and so does a command made
of appends, from its start and from where it waited. -/
theorem synthesizerIgnoresCrcAndErrors : Obligations.SynthesizerIgnoresCrcAndErrors := by
  refine ⟨fun i s hi => ?_, fun f s hf hc => ?_⟩
  · have hcomm (crc err errCode) := settle_resumeBody_withCrcErr crc err errCode
      (c := ⟨i, 0, 0⟩) hi (s.accept i 0)
    obtain ⟨hcrc, herr, hcode⟩ := crcErr_kept (hcomm s.crc s.err s.errCode)
    refine ⟨_, exec_synthesizer hi s, hcrc, herr, hcode, fun crc err errCode => ?_⟩
    rw [exec_synthesizer hi]
    exact congrArg _ (hcomm crc err errCode)
  · have hcomm (crc err errCode) := sinkTurn_withCrcErr crc err errCode hf hc
    obtain ⟨hcrc, herr, hcode⟩ := crcErr_kept (hcomm s.crc s.err s.errCode)
    exact ⟨hcrc, herr, hcode, hcomm⟩

/-! ### Copies of a list -/

/-- `l^k`: `k` copies of `l`, joined (00_scope.md R8). -/
def copies (l : List Sample) (k : Nat) : List Sample := (List.replicate k l).flatten

theorem copies_length (l : List Sample) (k : Nat) : (copies l k).length = k * l.length := by
  simp [copies, List.length_flatten]

theorem copies_add (l : List Sample) (j k : Nat) : copies l (j + k) = copies l j ++ copies l k := by
  rw [copies, List.replicate_add, List.flatten_append]
  rfl

theorem copies_succ (l : List Sample) (k : Nat) : copies l (k + 1) = copies l k ++ l := by
  rw [copies_add, copies, copies, List.replicate_one, List.flatten_singleton]

theorem copies_singleton (x : Sample) (k : Nat) : copies [x] k = List.replicate k x :=
  List.flatten_replicate_singleton

theorem flatten_replicate_copies (l : List Sample) (m k : Nat) :
    (List.replicate m (copies l k)).flatten = copies l (m * k) := by
  induction m with
  | zero => simp [copies]
  | succ m ih =>
    rw [List.replicate_succ', List.flatten_append, ih, List.flatten_singleton, Nat.succ_mul,
      copies_add]

/-! ### Equal appends, from one wait point to the next -/

theorem copyIn_nil (s : State) : s.copyIn [] = s := by
  simp [State.copyIn, writeCells_nil]

theorem copyIn_copyIn {s : State} {l₁ l₂ : List Sample} (h : s.occ ≤ s.ob.length) :
    (s.copyIn l₁).copyIn l₂ = s.copyIn (l₁ ++ l₂) := by
  simp [State.copyIn, writeCells_writeCells h, Nat.add_assoc]

/-- A loop whose first `m` units run goes on with the others. -/
theorem repeatUnits_of_ran {unit : Nat → State → Flow} {m k : Nat} {s t : State} (n : Nat)
    (h : repeatUnits unit m k s = .ran t) :
    repeatUnits unit (m + n) k s = repeatUnits unit n (k + m) t := by
  induction m generalizing k s with
  | zero =>
    cases h
    rw [Nat.zero_add]
    rfl
  | succ m ih =>
    rw [Nat.succ_add, repeatUnits]
    rw [repeatUnits] at h
    cases hu : unit k s with
    | waits u => simp [hu] at h
    | ran u =>
      simp only [hu] at h ⊢
      rw [ih h, Nat.add_right_comm, Nat.add_assoc]

/-- `fit` copies of `l` go into a buffer that holds `occ` samples, and no more (R55). -/
structure RoomFor (occ : Nat) (l : List Sample) (fit : Nat) : Prop where
  fits : occ + fit * l.length ≤ 1024
  full : 1024 < occ + fit * l.length + l.length

theorem RoomFor.length_le {l : List Sample} {fit : Nat} (h : RoomFor 0 l fit) (hpos : 0 < fit) :
    l.length ≤ 1024 := by
  have hfits := h.fits
  have hle := Nat.le_mul_of_pos_left l.length hpos
  omega

theorem RoomFor.copies_length_le {l : List Sample} {fit : Nat} (h : RoomFor 0 l fit) :
    (copies l fit).length ≤ 1024 := by
  rw [copies_length, ← Nat.zero_add (fit * _)]
  exact h.fits

section
variable {l : List Sample} {s : State} {fit : Nat}

theorem repeatAppend_fits {m : Nat} (k : Nat) (hs : s.occ ≤ s.ob.length)
    (hm : s.occ + m * l.length ≤ 1024) :
    repeatUnits (fun _ => append l) m k s = .ran (s.copyIn (copies l m)) := by
  induction m with
  | zero => exact congrArg Flow.ran (copyIn_nil s).symm
  | succ m ih =>
    rw [Nat.succ_mul, ← Nat.add_assoc] at hm
    have hlast : (s.copyIn (copies l m)).occ + l.length ≤ 1024 := by
      rwa [copyIn_occ, copies_length]
    rw [repeatUnits_of_ran 1 (ih (by omega)), repeatUnits, append_fits hlast]
    exact congrArg Flow.ran (by rw [copyIn_copyIn hs, copies_succ])

theorem RoomFor.copyIn_full (h : RoomFor s.occ l fit) :
    1024 < (s.copyIn (copies l fit)).occ + l.length := by
  rw [copyIn_occ, copies_length]
  exact h.full

theorem repeatAppend_waits {left k : Nat} (hs : s.occ ≤ s.ob.length) (h : RoomFor s.occ l fit)
    (hleft : fit < left) (hr : s.sinkReady = 0) :
    repeatUnits (fun _ => append l) left k s =
      .waits ((s.copyIn (copies l fit)).offering.withProgress (k + fit)) := by
  obtain ⟨m, rfl⟩ := Nat.exists_eq_add_of_lt hleft
  rw [Nat.add_assoc, repeatUnits_of_ran (m + 1) (repeatAppend_fits k hs h.fits), repeatUnits,
    append_waits h.copyIn_full hr]

/-- With the buffer full and the sink ready, the command goes on as from an empty buffer. -/
theorem repeatAppend_delivers {left k r : Nat} (hs : s.occ ≤ s.ob.length) (h : RoomFor s.occ l fit)
    (hl : l.length ≤ 1024) (hleft : 0 < left) (hr : s.sinkReady = r + 1) :
    repeatUnits (fun _ => append l) (fit + left) k s =
      repeatUnits (fun _ => append l) left (k + fit) ((s.copyIn (copies l fit)).delivering r) := by
  have hempty : ((s.copyIn (copies l fit)).delivering r).occ + l.length ≤ 1024 := by
    rwa [delivering_occ, Nat.zero_add]
  obtain ⟨m, rfl⟩ := Nat.exists_eq_add_of_lt hleft
  rw [repeatUnits_of_ran _ (repeatAppend_fits k hs h.fits), repeatUnits, repeatUnits,
    append_overflows h.copyIn_full hr, append_fits hempty]

end

/-! ### Equal appends, to their end or to the chunk the sink does not take -/

/-- `s` after the sink has taken `chunks` and is ready for `ready` more, with the buffer's cells `ob` of
which `occ` are occupied. -/
def State.refilled (s : State) (chunks : List (List Sample)) (ready : Nat) (ob : List Sample)
    (occ : Nat) : State :=
  { s with ob := ob, occ := occ, pend := none, delivered := s.delivered ++ chunks,
           sinkReady := ready }

section
variable (s : State) (chunks : List (List Sample)) (ready : Nat) (ob : List Sample) (occ : Nat)

@[simp] theorem refilled_ob : (s.refilled chunks ready ob occ).ob = ob := rfl
@[simp] theorem refilled_occ : (s.refilled chunks ready ob occ).occ = occ := rfl
@[simp] theorem refilled_sinkReady : (s.refilled chunks ready ob occ).sinkReady = ready := rfl

@[simp] theorem refilled_copyIn (l : List Sample) :
    (s.refilled chunks ready ob occ).copyIn l =
      s.refilled chunks ready (writeCells ob occ l) (occ + l.length) := rfl

theorem copyIn_delivering {l : List Sample} (h : s.occ ≤ s.ob.length) :
    (s.copyIn l).delivering ready =
      s.refilled [s.buffered ++ l] ready (writeCells s.ob s.occ l) 0 := by
  rw [← copyIn_buffered h]
  rfl

theorem refilled_copyIn_delivering (l : List Sample) (r : Nat) :
    ((s.refilled chunks ready ob 0).copyIn l).delivering r =
      s.refilled (chunks ++ [l]) r (writeCells ob 0 l) 0 := by
  rw [copyIn_delivering _ _ (Nat.zero_le _)]
  simp [State.refilled, State.buffered]

end

/-- `ob` is the cells of a buffer whose first samples are `content` (R22, R23). -/
structure Cells (ob content : List Sample) : Prop where
  ob_wf : ob.length = 1024
  take : ob.take content.length = content

theorem Cells.of_write {ob content : List Sample} (hob : ob.length = 1024)
    (h : content.length ≤ 1024) : Cells (writeCells ob 0 content) content where
  ob_wf := by rw [writeCells_length (by omega), hob]
  take := by simpa using writeCells_take (l := content) (Nat.zero_le ob.length)

theorem Cells.take_copies {ob l : List Sample} {k : Nat} (h : Cells ob (copies l k)) :
    ob.take (k * l.length) = copies l k := by
  have htake := h.take
  rwa [copies_length] at htake

section
variable {l : List Sample} {cap : Nat}

/-- From an empty buffer and a sink ready for every full chunk, a command of equal appends ends. -/
theorem repeatAppend_from_empty_completes (s : State) {last : Nat} (hcap : RoomFor 0 l cap)
    (hpos : 0 < last) (hlast : last ≤ cap) (full : Nat) {k ready : Nat}
    {chunks : List (List Sample)} {ob : List Sample} (hob : ob.length = 1024) (hr : full ≤ ready) :
    ∃ ob', Cells ob' (copies l last) ∧
      repeatUnits (fun _ => append l) (full * cap + last) k (s.refilled chunks ready ob 0) =
        .ran (s.refilled (chunks ++ List.replicate full (copies l cap)) (ready - full) ob'
          (last * l.length)) := by
  induction full generalizing k ready chunks ob with
  | zero =>
    have hfits : last * l.length ≤ 1024 := by
      have hle := Nat.mul_le_mul_right l.length hlast
      have hcapfits := hcap.fits
      omega
    refine ⟨_, .of_write hob (by rwa [copies_length]), ?_⟩
    rw [Nat.zero_mul, Nat.zero_add, repeatAppend_fits k (by simp) (by simpa using hfits),
      refilled_copyIn, copies_length]
    simp
  | succ full ih =>
    obtain ⟨r, rfl⟩ : ∃ r, ready = r + 1 := ⟨ready - 1, by omega⟩
    have hwf := (Cells.of_write hob hcap.copies_length_le).ob_wf
    obtain ⟨ob', hcells, hrun⟩ := ih (k := k + cap) (ready := r)
      (chunks := chunks ++ [copies l cap]) hwf (by omega)
    refine ⟨ob', hcells, ?_⟩
    rw [Nat.succ_mul, Nat.add_comm (full * cap), Nat.add_assoc,
      repeatAppend_delivers (by simp) hcap (hcap.length_le (by omega)) (by omega) rfl,
      refilled_copyIn_delivering, hrun, List.replicate_succ, List.append_assoc,
      List.singleton_append, Nat.add_sub_add_right]

/-- From an empty buffer and a sink ready for too few chunks, a command of equal appends waits with a
full chunk on offer. -/
theorem repeatAppend_from_empty_waits (s : State) (hcap : RoomFor 0 l cap) (hpos : 0 < cap)
    (ready : Nat) {left k : Nat} {chunks : List (List Sample)} {ob : List Sample}
    (hob : ob.length = 1024) (hleft : (ready + 1) * cap < left) :
    ∃ ob', Cells ob' (copies l cap) ∧
      repeatUnits (fun _ => append l) left k (s.refilled chunks ready ob 0) =
        .waits ((s.refilled (chunks ++ List.replicate ready (copies l cap)) 0 ob'
          (cap * l.length)).offering.withProgress (k + (ready + 1) * cap)) := by
  induction ready generalizing left k chunks ob with
  | zero =>
    refine ⟨_, .of_write hob hcap.copies_length_le, ?_⟩
    rw [repeatAppend_waits (by simp) hcap (by omega) rfl, refilled_copyIn, copies_length]
    simp
  | succ ready ih =>
    rw [Nat.succ_mul] at hleft
    obtain ⟨rest, rfl⟩ : ∃ rest, left = cap + rest := ⟨left - cap, by omega⟩
    obtain ⟨ob', hcells, hrun⟩ := ih (left := rest) (k := k + cap)
      (chunks := chunks ++ [copies l cap]) (Cells.of_write hob hcap.copies_length_le).ob_wf
      (by omega)
    refine ⟨ob', hcells, ?_⟩
    rw [repeatAppend_delivers (by simp) hcap (hcap.length_le hpos) (by omega) rfl,
      refilled_copyIn_delivering, hrun, List.replicate_succ,
      List.append_assoc, List.singleton_append, Nat.succ_mul (ready + 1), Nat.add_assoc,
      Nat.add_comm cap]

end

/-! ### What a command of equal appends does -/

section
variable {i : Instr} {l : List Sample} {s : State} {n fit cap : Nat}
  (he : exec i s = .next (settle (repeatUnits (fun _ => append l) n 0 (s.accept i 0))))
  (hs : s.BufferOk)

include he hs

theorem exec_repeatAppend_fits (hn : s.occ + n * l.length ≤ 1024) :
    exec i s = .next { s with
      ob := writeCells s.ob s.occ (copies l n), occ := s.occ + n * l.length,
      cur := none, busy := false } := by
  have hocc : s.occ ≤ s.ob.length := hs.ob_wf ▸ hs.occ_le
  rw [he, repeatAppend_fits (s := s.accept i 0) 0 hocc hn, ← copies_length]
  rfl

theorem exec_repeatAppend_waits (hfit : RoomFor s.occ l fit) (hn : fit < n) (hr : s.sinkReady = 0) :
    exec i s = .next { s with
      ob := writeCells s.ob s.occ (copies l fit), occ := s.occ + fit * l.length,
      pend := some (s.buffered ++ copies l fit), busy := true, cur := some ⟨i, fit, 0⟩ } := by
  have hocc : s.occ ≤ s.ob.length := hs.ob_wf ▸ hs.occ_le
  rw [he, repeatAppend_waits (s := s.accept i 0) hocc hfit hn hr, ← copies_length,
    ← copyIn_buffered hocc, Nat.zero_add]
  rfl

/-- The first chunk of a command that goes on past it: what was buffered and the lists that fit. -/
theorem exec_repeatAppend_delivers {left r : Nat}
    (hfit : RoomFor s.occ l fit) (hl : l.length ≤ 1024) (hn : n = fit + left)
    (hleft : 0 < left) (hr : s.sinkReady = r + 1) :
    ∃ ob, ob.length = 1024 ∧ exec i s = .next (settle (repeatUnits (fun _ => append l) left fit
      ((s.accept i 0).refilled [s.buffered ++ copies l fit] r ob 0))) := by
  have hocc : (s.accept i 0).occ ≤ (s.accept i 0).ob.length := hs.ob_wf ▸ hs.occ_le
  refine ⟨writeCells s.ob s.occ (copies l fit), ?_, ?_⟩
  · rw [writeCells_length (by rw [copies_length, hs.ob_wf]; exact hfit.fits), hs.ob_wf]
  · rw [he, hn, repeatAppend_delivers hocc hfit hl hleft hr, copyIn_delivering _ _ hocc,
      Nat.zero_add]
    rfl

/-- With a sink ready for every full chunk, the command ends: the buffer is filled up and taken, then
`full` times filled with `cap` lists and taken, and the last lists stay buffered. -/
theorem exec_repeatAppend_completes {full last : Nat}
    (hfit : RoomFor s.occ l fit) (hcap : RoomFor 0 l cap)
    (hn : n = fit + (full * cap + last)) (hpos : 0 < last) (hlast : last ≤ cap)
    (hr : full + 1 ≤ s.sinkReady) :
    ∃ ob, Cells ob (copies l last) ∧ exec i s = .next { s with
      ob := ob, occ := last * l.length,
      delivered := s.delivered ++
        ([s.buffered ++ copies l fit] ++ List.replicate full (copies l cap)),
      sinkReady := s.sinkReady - (full + 1), pend := none, cur := none, busy := false } := by
  obtain ⟨r, hready⟩ : ∃ r, s.sinkReady = r + 1 := ⟨s.sinkReady - 1, by omega⟩
  obtain ⟨ob, hob, hexec⟩ := exec_repeatAppend_delivers he hs hfit (hcap.length_le (by omega)) hn
    (by omega) hready
  obtain ⟨ob', hcells, hrun⟩ := repeatAppend_from_empty_completes (s.accept i 0) hcap hpos hlast
    full (k := fit) (ready := r) (chunks := [s.buffered ++ copies l fit]) hob (by omega)
  refine ⟨ob', hcells, ?_⟩
  rw [hexec, hrun, hready, Nat.add_sub_add_right]
  rfl

/-- With a sink ready for at least one chunk but not for all, the command waits with `cap` lists
on offer. -/
theorem exec_repeatAppend_interrupted {r : Nat}
    (hfit : RoomFor s.occ l fit) (hcap : RoomFor 0 l cap) (hpos : 0 < cap)
    (hn : fit + (r + 1) * cap < n) (hr : s.sinkReady = r + 1) :
    ∃ ob, Cells ob (copies l cap) ∧ exec i s = .next { s with
      ob := ob, occ := cap * l.length,
      delivered := s.delivered ++
        ([s.buffered ++ copies l fit] ++ List.replicate r (copies l cap)),
      sinkReady := 0, pend := some (copies l cap), busy := true,
      cur := some ⟨i, fit + (r + 1) * cap, 0⟩ } := by
  obtain ⟨left, rfl⟩ : ∃ left, n = fit + left := ⟨n - fit, by omega⟩
  obtain ⟨ob, hob, hexec⟩ := exec_repeatAppend_delivers he hs hfit (hcap.length_le hpos) rfl
    (by omega) hr
  obtain ⟨ob', hcells, hrun⟩ := repeatAppend_from_empty_waits (s.accept i 0) hcap hpos r
    (k := fit) (left := left) (chunks := [s.buffered ++ copies l fit]) hob (by omega)
  refine ⟨ob', hcells, ?_⟩
  rw [hexec, hrun, ← hcells.take_copies]
  rfl

end

/-! ### SYM_PREAMBLE -/

theorem exec_symPreamble (n : Nat) (s : State) :
    exec (.symPreamble n) s = .next (settle (repeatUnits (fun _ => append symbolPre) n 0
      (s.accept (.symPreamble n) 0))) := rfl

/-- An empty buffer takes 56 preamble units (R113). -/
theorem roomFor_symbolPre : RoomFor 0 symbolPre 56 :=
  ⟨by rw [symbolPre_length]; omega, by rw [symbolPre_length]; omega⟩

theorem decode_symPreamble {n : Nat} (hn : n < 2 ^ 24) :
    decode (BitVec.ofNat 32 (0x20000000 + n)) = .ok (.symPreamble n) := by
  have hwf : (Instr.symPreamble n).wellFormed = true := decide_eq_true hn
  refine (decode_eq_ok_iff hwf).mpr (BitVec.eq_of_toNat_eq ?_)
  rw [encode_toNat hwf, BitVec.toNat_ofNat, Instr.opcode, Instr.operand]
  omega

/-- Settles O44: a command of `n` equal appends, of which an empty buffer takes 56. -/
theorem symPreambleRendersNUnits : Obligations.SymPreambleRendersNUnits := by
  refine ⟨fun n => decode_symPreamble, rejectsOtherWords (fmt := .N) rfl fun w _ hlt => hlt,
    fun n s hob hocc => ?_⟩
  have hs : s.BufferOk := ⟨hob, hocc⟩
  have hlen := symbolPre_length
  have hfit : RoomFor s.occ symbolPre ((1024 - s.occ) / 18) :=
    ⟨by rw [hlen]; omega, by rw [hlen]; omega⟩
  have he := exec_symPreamble n s
  intro unit units fit last full
  refine ⟨fun hn => ?_, fun hn hr => ?_, fun hn hpos hr => ?_, fun hn hr => ?_⟩
  · have hall : s.occ + n * symbolPre.length ≤ 1024 := by
      rw [hlen]
      omega
    rw [exec_repeatAppend_fits he hs hall, hlen, Nat.mul_comm n]
    rfl
  · obtain ⟨ob, hcells, hexec⟩ := exec_repeatAppend_completes (full := full) (last := last) he hs
      hfit roomFor_symbolPre (by omega) (by omega) (by omega) hr
    refine ⟨_, hexec, ?_, hcells.take_copies, (List.append_assoc _ _ _).symm, rfl⟩
    rw [hlen, Nat.mul_comm]
  · obtain ⟨r, hready⟩ : ∃ r, s.sinkReady = r + 1 := ⟨s.sinkReady - 1, by omega⟩
    obtain ⟨ob, hcells, hexec⟩ := exec_repeatAppend_interrupted he hs hfit roomFor_symbolPre
      (by omega) (by omega) hready
    refine ⟨_, hexec, hcells.take_copies, ?_, ?_⟩
    · rw [hready]
      exact (List.append_assoc _ _ _).symm
    · rw [hready, hlen, Nat.mul_comm (r + 1)]
      rfl
  · rw [exec_repeatAppend_waits he hs hfit hn hr, hlen, Nat.mul_comm _ 18]
    rfl

/-! ### SYM_SILENCE -/

theorem exec_symSilence (s : State) :
    exec .symSilence s = .next (settle (repeatUnits (fun _ => append [zeroSample]) Config.silenceLen 0
      (s.accept .symSilence 0))) := rfl

theorem roomFor_singleton {occ : Nat} (x : Sample) (h : occ ≤ 1024) :
    RoomFor occ [x] (1024 - occ) :=
  ⟨by rw [List.length_singleton]; omega, by rw [List.length_singleton]; omega⟩

/-- What a command of equal appends delivers and what it leaves in the buffer are, in order, what was
buffered and its lists. -/
theorem Cells.flatten_chunks_append {ob l : List Sample} {last : Nat} (h : Cells ob (copies l last))
    (buffered : List Sample) (fit full cap : Nat) :
    ([buffered ++ copies l fit] ++ List.replicate full (copies l cap)).flatten ++
      ob.take (last * l.length) = buffered ++ copies l (fit + (full * cap + last)) := by
  rw [h.take_copies, List.flatten_append, List.flatten_singleton, flatten_replicate_copies,
    copies_add, copies_add]
  simp only [List.append_assoc]

theorem length_chunks (first chunk : List Sample) (full : Nat) :
    ([first] ++ List.replicate full chunk).length = full + 1 := by
  rw [List.length_append, List.length_singleton, List.length_replicate, Nat.add_comm]

/-- Every chunk of a silence is full: one sample at a time, the buffer fills to its end. -/
theorem length_of_mem_silence_chunks {s : State} (hs : s.BufferOk) (x : Sample) (full : Nat) :
    ∀ c ∈ [s.buffered ++ copies [x] (1024 - s.occ)] ++ List.replicate full (copies [x] 1024),
      c.length = 1024 := by
  have hocc := hs.occ_le
  intro c hc
  rcases List.mem_append.mp hc with hfirst | hrest
  · rw [List.mem_singleton.mp hfirst, List.length_append, buffered_length (hs.ob_wf ▸ hocc),
      copies_length, List.length_singleton]
    omega
  · rw [List.eq_of_mem_replicate hrest, copies_length, List.length_singleton]

/-- A buffer filled to its end (R115). -/
theorem take_writeCells_replicate {s : State} (hs : s.BufferOk) (x : Sample) :
    (writeCells s.ob s.occ (List.replicate (1024 - s.occ) x)).take 1024 =
      s.buffered ++ List.replicate (1024 - s.occ) x := by
  have htake := writeCells_take (l := List.replicate (1024 - s.occ) x) (hs.ob_wf ▸ hs.occ_le)
  rwa [List.length_replicate, Nat.add_sub_cancel' hs.occ_le] at htake

/-- A sink that is not ready: the buffer fills up with zeros and waits (R115). -/
theorem exec_symSilence_waits {s : State} (hs : s.BufferOk) (hr : s.sinkReady = 0) :
    exec .symSilence s = .next { s with
      ob := writeCells s.ob s.occ (List.replicate (1024 - s.occ) 0x0000#16), occ := 1024,
      pend := some (s.buffered ++ List.replicate (1024 - s.occ) 0x0000#16), busy := true,
      cur := some ⟨.symSilence, 1024 - s.occ, 0⟩ } := by
  have hlt : 1024 - s.occ < Config.silenceLen := by
    rw [Config.silenceLen, Config.sampleRate]
    omega
  rw [exec_repeatAppend_waits (exec_symSilence s) hs (roomFor_singleton _ hs.occ_le) hlt hr,
    copies_singleton, List.length_singleton, Nat.mul_one, Nat.add_sub_cancel' hs.occ_le]
  rfl

/-- Settles O46: a command of 44100 appends of one zero, of which an empty buffer takes 1024. -/
theorem symSilenceRendersOneSecond : Obligations.SymSilenceRendersOneSecond := by
  refine ⟨decodeOfEncodeIsTheCommand .symSilence rfl,
    rejectsOtherWords_of_formatA rfl rfl, fun s hob hocc => ?_⟩
  have hs : s.BufferOk := ⟨hob, hocc⟩
  have hfit := roomFor_singleton zeroSample hocc
  have hcap : RoomFor 0 [zeroSample] 1024 := roomFor_singleton zeroSample (Nat.zero_le _)
  have hn : Config.silenceLen = 44100 := rfl
  refine ⟨fun hr => ?_, fun hr => ?_, exec_symSilence_waits hs⟩
  · obtain ⟨full, hfull⟩ : ∃ full, (s.occ + 44100 - 1) / 1024 = full + 1 :=
      ⟨(s.occ + 44100 - 1) / 1024 - 1, by omega⟩
    rw [hfull] at hr ⊢
    obtain ⟨ob, hcells, hexec⟩ := exec_repeatAppend_completes
      (last := (s.occ + 44100 - 1) % 1024 + 1) (exec_symSilence s) hs hfit hcap
      (by omega) (by omega) (by omega) hr
    refine ⟨_, _, hexec, rfl, length_chunks _ _ _, length_of_mem_silence_chunks hs _ _,
      Nat.mul_one _, ?_, rfl⟩
    refine (hcells.flatten_chunks_append s.buffered (1024 - s.occ) full 1024).trans ?_
    rw [copies_singleton,
      show 1024 - s.occ + (full * 1024 + ((s.occ + 44100 - 1) % 1024 + 1)) = 44100 by omega]
    rfl
  · cases hready : s.sinkReady with
    | zero =>
      have hbuf := take_writeCells_replicate hs 0x0000#16
      refine ⟨_, [], exec_symSilence_waits hs hready, (List.append_nil _).symm, rfl,
        by simp, ?_, ?_⟩
      · exact hbuf
      · rw [hready, ← hbuf]
        rfl
    | succ r =>
      rw [hready] at hr
      obtain ⟨ob, hcells, hexec⟩ := exec_repeatAppend_interrupted (exec_symSilence s) hs hfit hcap
        (by omega) (by omega) hready
      refine ⟨_, _, hexec, rfl, length_chunks _ _ _, length_of_mem_silence_chunks hs _ _, ?_, ?_⟩
      · refine (hcells.flatten_chunks_append s.buffered (1024 - s.occ) r 1024).trans ?_
        rw [copies_singleton, show r * 1024 + 1024 = 1024 * (r + 1) by omega]
        rfl
      · rw [← hcells.take_copies, Nat.mul_comm (r + 1)]
        rfl

end Sys2Proof.Machine
end

section
/-! PROOFS. The CRC accumulator (41_crc.md): the update, its fold, and its two commands.

The update is a shift by 2 that XORs in the constant 0x2041 on carry (`crcStep_eq`), so a fold is fixed
by its start value and its carries (`crcFold_eq_foldl_feed`), and a fold of eight bits by its carries
alone (`crcFold_of_eight`): that is R146(e). The carries depend on the start value only through its odd
bits (`carries_congr_odd`): that is R146(f) and (g). Under input 0 two parities of the odd bits change
places at each fold (`drains_crcStep_false`): that is R146(d). -/

namespace Sys2Proof.Machine

/-! ### The update: a shift, and a constant on carry -/

/-- `v` where the carry is 1 and zero where it is 0, as in R141's one-XOR form. -/
def onCarry (c : Bool) (v : Crc) : Crc := if c = true then v else 0x0000#16

@[simp] theorem onCarry_true (v : Crc) : onCarry true v = v := rfl

@[simp] theorem onCarry_false (v : Crc) : onCarry false v = 0x0000#16 := rfl

theorem onCarry_xor (c d : Bool) (v : Crc) : onCarry (c ^^ d) v = onCarry c v ^^^ onCarry d v := by
  cases c <;> cases d <;> simp

theorem onCarry_shiftLeft (c : Bool) (v : Crc) (n : Nat) : onCarry c v <<< n = onCarry c (v <<< n) := by
  cases c <;> simp

theorem getLsbD_onCarry (c : Bool) (v : Crc) (k : Nat) :
    (onCarry c v).getLsbD k = (c && v.getLsbD k) := by
  cases c <;> simp

theorem crcCarry_eq (s : Crc) (b : Bool) : crcCarry s b = (s.getLsbD 15 ^^ b) := by
  cases b <;> simp [crcCarry]

/-- The increment of R140 sets a bit that the shift has left 0. -/
theorem shiftLeft_add_one (x : Crc) {shift : Nat} (h : 0 < shift) :
    x <<< shift + 1#16 = x <<< shift ^^^ 1#16 := by
  have hzero : (x <<< shift).getLsbD 0 = false := by simp [h]
  have hone (k : Nat) (hk : k ≠ 0) : (1#16).getLsbD k = false := by simp [hk]
  have hdisjoint : x <<< shift &&& 1#16 = 0#16 := by
    refine BitVec.eq_of_getLsbD_eq fun k _ => ?_
    rw [BitVec.getLsbD_and, BitVec.getLsbD_zero]
    obtain rfl | hk := eq_or_ne k 0
    · rw [hzero, Bool.false_and]
    · rw [hone k hk, Bool.and_false]
  rw [BitVec.add_eq_or_of_and_eq_zero _ _ hdisjoint]
  refine BitVec.eq_of_getLsbD_eq fun k _ => ?_
  rw [BitVec.getLsbD_or, BitVec.getLsbD_xor]
  obtain rfl | hk := eq_or_ne k 0
  · rw [hzero, Bool.false_or, Bool.false_xor]
  · rw [hone k hk, Bool.or_false, Bool.xor_false]

/-- R140 as one shift and one XOR, for any shift that leaves bit 0 free. -/
theorem crcStepWith_eq {shift : Nat} (h : 0 < shift) (s : Crc) (b : Bool) :
    crcStepWith shift s b =
      s <<< shift ^^^ onCarry (s.getLsbD 15 ^^ b) (0x0810#16 <<< shift ^^^ 1#16) := by
  rw [crcStepWith, crcCarry_eq]
  cases s.getLsbD 15 ^^ b with
  | false => simp
  | true =>
    simp only [onCarry_true, if_true, Config.crcFeedback]
    rw [shiftLeft_add_one _ h, BitVec.shiftLeft_xor_distrib, BitVec.xor_assoc]

/-- The register shifted by 2, with 0x2041 XORed in where the carry is 1 (R141). -/
def feed (s : Crc) (c : Bool) : Crc := s <<< 2 ^^^ onCarry c 0x2041#16

theorem crcStep_eq (s : Crc) (b : Bool) : crcStep s b = feed s (s.getLsbD 15 ^^ b) :=
  crcStepWith_eq Nat.two_pos s b

theorem getLsbD_feed_zero (s : Crc) (c : Bool) : (feed s c).getLsbD 0 = c := by
  cases c <;> simp [feed]

theorem getLsbD_feed_one (s : Crc) (c : Bool) : (feed s c).getLsbD 1 = false := by
  cases c <;> simp [feed]

/-- R141's table above bit 1: the carry goes into bits 6 and 13. -/
theorem getLsbD_feed_add_two (s : Crc) (c : Bool) {k : Nat} (hk : k < 14) :
    (feed s c).getLsbD (k + 2) = (s.getLsbD k ^^ (c && decide (k = 4 ∨ k = 11))) := by
  have hconst : (0x2041#16).getLsbD (k + 2) = decide (k = 4 ∨ k = 11) := by
    revert k
    decide
  have hshift : (s <<< 2).getLsbD (k + 2) = s.getLsbD k := by
    rw [BitVec.getLsbD_shiftLeft, decide_eq_true (by omega), decide_eq_false (by omega), Bool.true_and,
      Bool.not_false, Bool.true_and, Nat.add_sub_cancel]
  rw [feed, BitVec.getLsbD_xor, getLsbD_onCarry, hconst, hshift]

/-- Where the carry does not go, a bit takes the one two below it. -/
theorem getLsbD_feed_shifted (s : Crc) (c : Bool) {k : Nat} (hk : k < 14) (h4 : k ≠ 4)
    (h11 : k ≠ 11) : (feed s c).getLsbD (k + 2) = s.getLsbD k := by
  rw [getLsbD_feed_add_two s c hk]
  simp [h4, h11]

theorem getLsbD_feed_six (s : Crc) (c : Bool) :
    (feed s c).getLsbD 6 = (s.getLsbD 4 ^^ c) := by
  rw [getLsbD_feed_add_two s c (k := 4) (by decide)]
  simp

theorem getLsbD_feed_thirteen (s : Crc) (c : Bool) :
    (feed s c).getLsbD 13 = (s.getLsbD 11 ^^ c) := by
  rw [getLsbD_feed_add_two s c (k := 11) (by decide)]
  simp

/-- Settles O25, by the two values of the carry. -/
theorem crcStepFollowsTheSource : Obligations.CrcStepFollowsTheSource := by
  intro s b
  have hcarry : (s.getLsbD 15 != b) = crcCarry s b := (crcCarry_eq s b).symm
  simp only [hcarry, crcStep, crcStepWith, Config.crcShift, Config.crcFeedback]
  cases crcCarry s b with
  | false => simp [Nat.shiftLeft_eq]
  | true => simp [Nat.shiftLeft_eq]

/-- Settles O26: the one-XOR form, read off bit by bit. -/
theorem crcStepBitTable : Obligations.CrcStepBitTable := by
  intro s b
  simp only [crcStep_eq]
  have shifted (k : Nat) (hk : k < 14) (h4 : k ≠ 4) (h11 : k ≠ 11) :=
    getLsbD_feed_shifted s (s.getLsbD 15 ^^ b) hk h4 h11
  refine ⟨getLsbD_feed_zero _ _, getLsbD_feed_one _ _, fun k h2 h5 => ?_, getLsbD_feed_six _ _,
    fun k h7 h12 => ?_, getLsbD_feed_thirteen _ _, shifted 12 (by decide) (by decide) (by decide),
    shifted 13 (by decide) (by decide) (by decide), rfl⟩
  · obtain ⟨j, rfl⟩ := Nat.exists_eq_add_of_le' h2
    exact shifted j (by omega) (by omega) (by omega)
  · obtain ⟨j, rfl⟩ := Nat.exists_eq_add_of_le' (show 2 ≤ k by omega)
    exact shifted j (by omega) (by omega) (by omega)

/-- The carry is linear, so the update is (R145). -/
theorem crcStepWith_xor {shift : Nat} (h : 0 < shift) (s₁ s₂ : Crc) (b₁ b₂ : Bool) :
    crcStepWith shift (s₁ ^^^ s₂) (b₁ ^^ b₂) =
      crcStepWith shift s₁ b₁ ^^^ crcStepWith shift s₂ b₂ := by
  have hcarry : ((s₁ ^^^ s₂).getLsbD 15 ^^ (b₁ ^^ b₂)) =
      ((s₁.getLsbD 15 ^^ b₁) ^^ (s₂.getLsbD 15 ^^ b₂)) := by
    rw [BitVec.getLsbD_xor, Bool.xor_assoc, Bool.xor_assoc, Bool.xor_left_comm b₁]
  rw [crcStepWith_eq h, crcStepWith_eq h, crcStepWith_eq h, hcarry, onCarry_xor,
    BitVec.shiftLeft_xor_distrib]
  ac_rfl

/-- Flipping register bits and the input by a pair that the update sends to 0 changes nothing. -/
theorem crcStep_xor_of_eq_zero {t : Crc} {c : Bool} (h : crcStep t c = 0x0000#16) (s : Crc) (b : Bool) :
    crcStep (s ^^^ t) (b ^^ c) = crcStep s b :=
  calc crcStep (s ^^^ t) (b ^^ c)
    _ = crcStep s b ^^^ crcStep t c := crcStepWith_xor Nat.two_pos s t b c
    _ = crcStep s b := by rw [h, BitVec.xor_zero]

/-- Settles O27: the source's shift is 2, and either shift leaves bit 0 free. -/
theorem crcStepIsLinear : Obligations.CrcStepIsLinear :=
  ⟨fun _ s₁ s₂ b₁ b₂ hshift => crcStepWith_xor (by omega) s₁ s₂ b₁ b₂, by decide,
    fun _ _ => rfl⟩

/-- Settles O28: 0x0810 shifted by 1, with bit 0 set, is 0x1021. -/
theorem crcStepWithShiftOne : Obligations.CrcStepWithShiftOne := fun s b =>
  crcStepWith_eq Nat.one_pos s b

/-! ### A fold and its carries -/

/-- The carries of a fold of a list of bits, in the order of the folds. -/
def carries : Crc → List Bool → List Bool
  | _, [] => []
  | s, b :: bits => (s.getLsbD 15 ^^ b) :: carries (crcStep s b) bits

@[simp] theorem carries_length (s : Crc) (bits : List Bool) :
    (carries s bits).length = bits.length := by
  induction bits generalizing s with
  | nil => rfl
  | cons b bits ih => simp [carries, ih]

/-- A fold is fixed by its start value and its carries. -/
theorem crcFold_eq_foldl_feed (s : Crc) (bits : List Bool) :
    crcFold s bits = (carries s bits).foldl feed s := by
  induction bits generalizing s with
  | nil => rfl
  | cons b bits ih => rw [crcFold_cons, ih, carries, List.foldl_cons, crcStep_eq]

/-- Every list of carries is the carries of some fold: the input bit settles its carry. -/
theorem exists_carries_eq (s : Crc) (cs : List Bool) : ∃ bits, carries s bits = cs := by
  induction cs generalizing s with
  | nil => exact ⟨[], rfl⟩
  | cons c cs ih =>
    obtain ⟨bits, hbits⟩ := ih (crcStep s (s.getLsbD 15 ^^ c))
    refine ⟨(s.getLsbD 15 ^^ c) :: bits, ?_⟩
    rw [carries, hbits, ← Bool.xor_assoc, Bool.xor_self, Bool.false_xor]

/-- Each feed shifts the start value left by 2 and leaves what the carries have put in. -/
theorem foldl_feed_eq (s : Crc) (cs : List Bool) :
    cs.foldl feed s = s <<< (2 * cs.length) ^^^ cs.foldl feed 0x0000#16 := by
  induction cs using List.reverseRecOn with
  | nil => simp
  | append_singleton cs c ih =>
    rw [List.foldl_concat, List.foldl_concat, ih, feed, feed, BitVec.shiftLeft_xor_distrib,
      ← BitVec.shiftLeft_add, BitVec.xor_assoc, List.length_append, List.length_singleton, Nat.mul_add]

/-- Eight feeds shift every bit of the start value out (R146(e)). -/
theorem foldl_feed_of_eight {cs : List Bool} (h : 8 ≤ cs.length) (s : Crc) :
    cs.foldl feed s = cs.foldl feed 0x0000#16 := by
  rw [foldl_feed_eq, BitVec.shiftLeft_eq_zero (by omega), BitVec.zero_xor]

theorem crcFold_of_eight {bits : List Bool} (h : 8 ≤ bits.length) (s : Crc) :
    crcFold s bits = (carries s bits).foldl feed 0x0000#16 := by
  rw [crcFold_eq_foldl_feed, foldl_feed_of_eight (by rwa [carries_length])]

/-- The carries can be read off what they have put in, from the last one back, as long as their bits have
not been shifted out. -/
theorem foldl_feed_inj {cs ds : List Bool} (hlen : cs.length = ds.length) {m : Nat}
    (hm : m + 2 * cs.length ≤ 16) {s : Crc}
    (h : cs.foldl feed s <<< m = ds.foldl feed s <<< m) : cs = ds := by
  induction cs using List.reverseRecOn generalizing ds m with
  | nil => exact (List.length_eq_zero_iff.mp hlen.symm).symm
  | append_singleton cs c ih =>
    obtain rfl | ⟨ds, d, rfl⟩ := List.eq_nil_or_concat' ds
    · simp at hlen
    rw [List.foldl_concat, List.foldl_concat] at h
    simp only [List.length_append, List.length_singleton] at hlen hm
    have hcd : c = d := by
      have hbit := congrArg (·.getLsbD m) h
      simp only [BitVec.getLsbD_shiftLeft, Nat.sub_self, getLsbD_feed_zero] at hbit
      simpa [show m < 16 by omega] using hbit
    subst hcd
    rw [feed, feed, BitVec.shiftLeft_xor_distrib, BitVec.shiftLeft_xor_distrib, BitVec.xor_left_inj,
      ← BitVec.shiftLeft_add, ← BitVec.shiftLeft_add] at h
    rw [ih (by omega) (by omega) h]

/-! ### The span of the carries' constants -/

/-- Eight bits are those of a byte. -/
theorem exists_byteBits_eq {bits : List Bool} (h : bits.length = 8) : ∃ v, byteBits v = bits := by
  refine ⟨(BitVec.ofBoolListLE bits).cast h, List.ext_getElem (by simp [h]) fun j _ hj => ?_⟩
  simp [byteBits, List.getElem?_eq_getElem hj]

theorem byteBits_injective {v u : BitVec 8} (h : byteBits v = byteBits u) : v = u := by
  refine BitVec.eq_of_getLsbD_eq fun j hj => ?_
  exact List.map_inj_left.mp h j (List.mem_range.mpr hj)

/-- What eight carries put in: the constants `V_0` to `V_7` (R146(e)). -/
theorem foldl_feed_eight (c0 c1 c2 c3 c4 c5 c6 c7 : Bool) :
    [c0, c1, c2, c3, c4, c5, c6, c7].foldl feed 0x0000#16 =
      onCarry c0 0x4000#16 ^^^ onCarry c1 0x1000#16 ^^^ onCarry c2 0x0400#16 ^^^
      onCarry c3 0x4100#16 ^^^ onCarry c4 0x1040#16 ^^^ onCarry c5 0x0410#16 ^^^
      onCarry c6 0x8104#16 ^^^ onCarry c7 0x2041#16 := by
  simp [feed, BitVec.shiftLeft_xor_distrib, onCarry_shiftLeft]

/-- `carrySpan` is what eight feeds put in. -/
theorem carrySpan_eq_foldl_feed (c : BitVec 8) :
    carrySpan c = (byteBits c).foldl feed 0x0000#16 :=
  calc carrySpan c
    _ = 0x0000#16 ^^^ onCarry (c.getLsbD 0) 0x4000#16 ^^^ onCarry (c.getLsbD 1) 0x1000#16 ^^^
        onCarry (c.getLsbD 2) 0x0400#16 ^^^ onCarry (c.getLsbD 3) 0x4100#16 ^^^
        onCarry (c.getLsbD 4) 0x1040#16 ^^^ onCarry (c.getLsbD 5) 0x0410#16 ^^^
        onCarry (c.getLsbD 6) 0x8104#16 ^^^ onCarry (c.getLsbD 7) 0x2041#16 := rfl
    _ = (byteBits c).foldl feed 0x0000#16 := by
      rw [BitVec.zero_xor]
      exact (foldl_feed_eight _ _ _ _ _ _ _ _).symm

theorem carrySpan_injective {c d : BitVec 8} (h : carrySpan c = carrySpan d) : c = d := by
  rw [carrySpan_eq_foldl_feed, carrySpan_eq_foldl_feed] at h
  exact byteBits_injective (foldl_feed_inj (m := 0) (by simp) (by simp) (by simpa using h))

/-- Eight bits fold to the span value of their carries. -/
theorem crcFold_eq_carrySpan {s : Crc} {bits : List Bool} {c : BitVec 8} (h : bits.length = 8)
    (hc : byteBits c = carries s bits) : crcFold s bits = carrySpan c := by
  rw [crcFold_of_eight h.ge, ← hc, carrySpan_eq_foldl_feed]

/-- Settles O30: eight bits fold to what their carries put in, and every pattern of carries is met. -/
theorem eightFoldsLeaveOnlyTheCarries : Obligations.EightFoldsLeaveOnlyTheCarries := by
  refine ⟨fun s b0 b1 b2 b3 b4 b5 b6 b7 => ?_, fun s bits hne hlen => ?_, fun s c => ?_,
    fun c d => carrySpan_injective⟩
  · exact (crcFold_of_eight (by simp) s).trans (foldl_feed_eight _ _ _ _ _ _ _ _)
  · have hpos := List.length_pos_iff.mpr hne
    have hlast : (bits.drop (bits.length - 8)).length = 8 := by
      rw [List.length_drop]
      omega
    rw [← List.take_append_drop (bits.length - 8) bits, crcFold_append]
    obtain ⟨c, hc⟩ := exists_byteBits_eq (bits := carries _ _) ((carries_length _ _).trans hlast)
    exact ⟨c, crcFold_eq_carrySpan hlast hc⟩
  · obtain ⟨bits, hbits⟩ := exists_carries_eq s (byteBits c)
    have hlen : bits.length = 8 := by rw [← carries_length s, hbits, byteBits_length]
    obtain ⟨v, rfl⟩ := exists_byteBits_eq hlen
    exact ⟨v, crcFold_eq_carrySpan hlen hbits.symm⟩

/-! ### The odd bits -/

/-- Bit `2 * k + 1` of the register: bits 15 and 13 are `oddBit` 7 and 6. -/
def oddBit (s : Crc) (k : Nat) : Bool := s.getLsbD (2 * k + 1)

theorem oddBit_feed_zero (s : Crc) (c : Bool) : oddBit (feed s c) 0 = false := getLsbD_feed_one s c

/-- An odd bit takes the one below it; the carry goes into bit 13. -/
theorem oddBit_feed_succ (s : Crc) (c : Bool) {k : Nat} (hk : k < 7) :
    oddBit (feed s c) (k + 1) = (oddBit s k ^^ (c && decide (k = 5))) := by
  have htap : decide (2 * k + 1 = 4 ∨ 2 * k + 1 = 11) = decide (k = 5) :=
    decide_eq_decide.mpr (by omega)
  rw [oddBit, oddBit, ← htap]
  exact getLsbD_feed_add_two s c (k := 2 * k + 1) (by omega)

/-- Below bit 13 an odd bit is 0 where it was shifted in or the one below it was 0. -/
theorem oddBit_feed_eq_false {s : Crc} {k : Nat} (hk : k < 6)
    (h : ∀ j, k = j + 1 → oddBit s j = false) (c : Bool) : oddBit (feed s c) k = false := by
  cases k with
  | zero => exact oddBit_feed_zero s c
  | succ j => rw [oddBit_feed_succ s c (by omega), h j rfl, decide_eq_false (by omega),
      Bool.and_false, Bool.xor_false]

/-- The carry of a fold is bit 15, against the input. -/
theorem crcStep_eq_oddBit (s : Crc) (b : Bool) : crcStep s b = feed s (oddBit s 7 ^^ b) := crcStep_eq s b

/-- Two registers agree under a mask of odd bits when those bits agree. -/
theorem and_eq_and_iff_oddBit {m : Crc} {lo hi : Nat}
    (hm : ∀ k < 16, m.getLsbD k = true ↔ k % 2 = 1 ∧ lo ≤ k / 2 ∧ k / 2 < hi) (hhi : hi ≤ 8)
    (s t : Crc) :
    s &&& m = t &&& m ↔ ∀ k, lo ≤ k → k < hi → oddBit s k = oddBit t k := by
  constructor
  · intro h k hlo hlt
    have hbit := congrArg (·.getLsbD (2 * k + 1)) h
    have hk : m.getLsbD (2 * k + 1) = true := (hm _ (by omega)).mpr (by omega)
    simpa only [oddBit, BitVec.getLsbD_and, hk, Bool.and_true] using hbit
  · intro h
    refine BitVec.eq_of_getLsbD_eq fun k hk => ?_
    rw [BitVec.getLsbD_and, BitVec.getLsbD_and]
    by_cases hmask : m.getLsbD k = true
    · obtain ⟨hodd, hlo, hlt⟩ := (hm k hk).mp hmask
      have hbit := h (k / 2) hlo hlt
      rw [oddBit, oddBit, show 2 * (k / 2) + 1 = k by omega] at hbit
      rw [hbit]
    · simp [hmask]

theorem and_0xAAAA_eq_iff (s t : Crc) :
    s &&& 0xAAAA#16 = t &&& 0xAAAA#16 ↔ ∀ k < 8, oddBit s k = oddBit t k := by
  simpa using and_eq_and_iff_oddBit (lo := 0) (hi := 8) (by decide) le_rfl s t

theorem and_0xA000_eq_iff (s t : Crc) : s &&& 0xA000#16 = t &&& 0xA000#16 ↔
    ∀ k, 6 ≤ k → k < 8 → oddBit s k = oddBit t k :=
  and_eq_and_iff_oddBit (by decide) le_rfl s t

theorem and_0x0AAA_eq_zero_iff (s : Crc) :
    s &&& 0x0AAA#16 = 0x0000#16 ↔ ∀ k < 6, oddBit s k = false := by
  simpa [oddBit] using and_eq_and_iff_oddBit (m := 0x0AAA#16) (lo := 0) (hi := 6) (by decide)
    (by decide) s 0x0000#16

/-- Each fold of a list clears one more odd bit, up to bit 11. -/
theorem oddBit_crcFold (s : Crc) {bits : List Bool} {k : Nat} (hk : k < 6) (hlen : k < bits.length) :
    oddBit (crcFold s bits) k = false := by
  induction bits using List.reverseRecOn generalizing k with
  | nil => simp at hlen
  | append_singleton bits b ih =>
    rw [List.length_append, List.length_singleton] at hlen
    rw [crcFold_append, crcFold_cons, crcFold_nil, crcStep_eq]
    exact oddBit_feed_eq_false hk (fun j hj => ih (by omega) (by omega)) _

/-- A whole byte clears every odd bit but 15 and 13 (R146(g)). -/
theorem crcFold_byteBits_and_0x0AAA (s : Crc) (v : BitVec 8) :
    crcFold s (byteBits v) &&& 0x0AAA#16 = 0x0000#16 :=
  (and_0x0AAA_eq_zero_iff _).mpr fun k hk =>
    oddBit_crcFold s hk (by rw [byteBits_length]; omega)

/-- The carries depend on the start value only through its odd bits (R146(g)). -/
theorem carries_congr_odd {s t : Crc} (h : ∀ k < 8, oddBit s k = oddBit t k) (bits : List Bool) :
    carries s bits = carries t bits := by
  induction bits generalizing s t with
  | nil => rfl
  | cons b bits ih =>
    have h15 : s.getLsbD 15 = t.getLsbD 15 := h 7 (by decide)
    have hstep : ∀ k < 8, oddBit (crcStep s b) k = oddBit (crcStep t b) k := by
      intro k hk
      rw [crcStep_eq, crcStep_eq, h15]
      cases k with
      | zero => rw [oddBit_feed_zero, oddBit_feed_zero]
      | succ k =>
        rw [oddBit_feed_succ _ _ (by omega), oddBit_feed_succ _ _ (by omega), h k (by omega)]
    rw [carries, carries, h15, ih hstep]

/-- So does the value after eight bits or more, which the carries alone put in. -/
theorem crcFold_congr_odd {s t : Crc} (h : s &&& 0xAAAA#16 = t &&& 0xAAAA#16) {bits : List Bool}
    (hlen : 8 ≤ bits.length) : crcFold s bits = crcFold t bits := by
  rw [crcFold_of_eight hlen, crcFold_of_eight hlen,
    carries_congr_odd ((and_0xAAAA_eq_iff s t).mp h) bits]

/-- Registers left by whole bytes have no odd bits but 15 and 13 to differ in. -/
theorem and_0xAAAA_eq_of_high {s t : Crc} (hs : s &&& 0x0AAA#16 = 0x0000#16)
    (ht : t &&& 0x0AAA#16 = 0x0000#16) (h : s &&& 0xA000#16 = t &&& 0xA000#16) :
    s &&& 0xAAAA#16 = t &&& 0xAAAA#16 := by
  rw [and_0x0AAA_eq_zero_iff] at hs ht
  rw [and_0xA000_eq_iff] at h
  refine (and_0xAAAA_eq_iff s t).mpr fun k hk => ?_
  rcases Nat.lt_or_ge k 6 with hlow | hhigh
  · rw [hs k hlow, ht k hlow]
  · exact h k hhigh hk

/-! ### A byte 0x00 after whole bytes -/

/-- `n` values that take turns, `a` first. -/
def alternating (a b : Bool) : Nat → List Bool
  | 0 => []
  | n + 1 => a :: alternating b a n

/-- With the other odd bits 0, zeros make bits 15 and 13 change places, and each is the carry in its turn
(R146(f)). -/
theorem carries_zeros {s : Crc} (h : ∀ k < 6, oddBit s k = false) (n : Nat) :
    carries s (List.replicate n false) = alternating (oddBit s 7) (oddBit s 6) n := by
  induction n generalizing s with
  | zero => rfl
  | succ n ih =>
    have hstep : crcStep s false = feed s (oddBit s 7) := by rw [crcStep_eq_oddBit, Bool.xor_false]
    have h15 : oddBit (crcStep s false) 7 = oddBit s 6 := by
      rw [hstep, oddBit_feed_succ _ _ (by decide)]
      simp
    have h13 : oddBit (crcStep s false) 6 = oddBit s 7 := by
      rw [hstep, oddBit_feed_succ _ _ (by decide), h 5 (by decide)]
      simp
    have hlow (k : Nat) (hk : k < 6) : oddBit (crcStep s false) k = false := by
      rw [hstep]
      exact oddBit_feed_eq_false hk (fun j hj => h j (by omega)) _
    rw [List.replicate_succ, carries, ih hlow, h15, h13, Bool.xor_false]
    rfl

/-- What a byte 0x00 leaves after whole bytes: 0xD544 for bit 15 and 0x7551 for bit 13 (R146(f)). -/
theorem crcFold_zero_byte {s : Crc} (h : s &&& 0x0AAA#16 = 0x0000#16) :
    crcFold s (byteBits 0x00#8) = onCarry (oddBit s 7) 0xD544#16 ^^^ onCarry (oddBit s 6) 0x7551#16 := by
  rw [show byteBits 0x00#8 = List.replicate 8 false by decide, crcFold_of_eight (by simp),
    carries_zeros ((and_0x0AAA_eq_zero_iff s).mp h)]
  generalize oddBit s 7 = a, oddBit s 6 = b
  refine (foldl_feed_eight a b a b a b a b).trans ?_
  revert a b
  decide

/-- The four values a byte 0x00 can leave after whole bytes (R146(f)). -/
def zeroByteValues : List Crc := [0x0000#16, 0xD544#16, 0x7551#16, 0xA015#16]

theorem zeroByteValues_nodup : zeroByteValues.Nodup := by decide

theorem crcFold_zero_byte_mem {s : Crc} (h : s &&& 0x0AAA#16 = 0x0000#16) :
    crcFold s (byteBits 0x00#8) ∈ zeroByteValues := by
  rw [crcFold_zero_byte h]
  cases oddBit s 7 <;> cases oddBit s 6 <;> decide

/-- A byte 0x00 leaves each of the four values as it is. -/
theorem zeroByteValues_fixed {r : Crc} (hr : r ∈ zeroByteValues) :
    r &&& 0x0AAA#16 = 0x0000#16 ∧ crcFold r (byteBits 0x00#8) = r := by
  have fixed {r : Crc} (hlow : r &&& 0x0AAA#16 = 0x0000#16)
      (hhigh : onCarry (oddBit r 7) 0xD544#16 ^^^ onCarry (oddBit r 6) 0x7551#16 = r) :
      r &&& 0x0AAA#16 = 0x0000#16 ∧ crcFold r (byteBits 0x00#8) = r :=
    ⟨hlow, (crcFold_zero_byte hlow).trans hhigh⟩
  simp only [zeroByteValues, List.mem_cons, List.not_mem_nil, or_false] at hr
  obtain rfl | rfl | rfl | rfl := hr <;> exact fixed (by decide) (by decide)

/-- Settles O31: after whole bytes only bits 15 and 13 matter, and a byte 0x00 reads its four values off
them. -/
theorem byteFoldForgetsEvenBits : Obligations.ByteFoldForgetsEvenBits := by
  unfold Obligations.ByteFoldForgetsEvenBits
  intro four
  refine ⟨crcFold_byteBits_and_0x0AAA, fun s h => ?_, ⟨?_, ?_⟩, fun bytes => ?_, fun s t v h => ?_,
    fun s t u v later h ht => ?_⟩
  · exact crcFold_zero_byte_mem h
  · exact zeroByteValues_nodup
  · exact fun r hr => zeroByteValues_fixed hr
  · rw [crcFold_append]
    refine crcFold_zero_byte_mem ?_
    obtain rfl | ⟨front, last, rfl⟩ := List.eq_nil_or_concat' bytes
    · decide
    · rw [List.flatMap_append, List.flatMap_singleton, crcFold_append]
      exact crcFold_byteBits_and_0x0AAA _ _
  · exact crcFold_congr_odd h (byteBits_length v).ge
  · refine crcFold_congr_odd (and_0xAAAA_eq_of_high (crcFold_byteBits_and_0x0AAA s u) ht h) ?_
    rw [List.length_append, byteBits_length]
    omega

/-! ### Zeros drain a quarter of the values -/

/-- The parity of bits 15, 11, 7 and 3. -/
def upperParity (s : Crc) : Bool := oddBit s 7 ^^ oddBit s 5 ^^ oddBit s 3 ^^ oddBit s 1

/-- The parity of bits 13, 9, 5 and 1. -/
def lowerParity (s : Crc) : Bool := oddBit s 6 ^^ oddBit s 4 ^^ oddBit s 2 ^^ oddBit s 0

/-- A start value that zeros drive to 0 (R146(d)): both parities are 0. -/
def Drains (s : Crc) : Prop := upperParity s = false ∧ lowerParity s = false

/-- Under input 0 the two parities change places. -/
theorem drains_crcStep_false (s : Crc) : Drains (crcStep s false) ↔ Drains s := by
  have hupper : upperParity (crcStep s false) = lowerParity s := by
    simp [upperParity, lowerParity, crcStep_eq_oddBit, oddBit_feed_succ]
  have hlower : lowerParity (crcStep s false) = upperParity s := by
    simp [upperParity, lowerParity, crcStep_eq_oddBit, oddBit_feed_succ, oddBit_feed_zero,
      Bool.xor_comm]
  rw [Drains, Drains, hupper, hlower, and_comm]

theorem drains_crcFold_zeros (s : Crc) (k : Nat) :
    Drains (crcFold s (List.replicate k false)) ↔ Drains s := by
  induction k generalizing s with
  | zero => rfl
  | succ k ih => rw [List.replicate_succ, crcFold_cons, ih, drains_crcStep_false]

theorem drains_zero : Drains 0x0000#16 := ⟨rfl, rfl⟩

theorem crcFold_zero_zeros (k : Nat) : crcFold 0x0000#16 (List.replicate k false) = 0x0000#16 := by
  induction k with
  | zero => rfl
  | succ k ih =>
    rw [List.replicate_succ, crcFold_cons, show crcStep 0x0000#16 false = 0x0000#16 by decide, ih]

/-- Six zeros leave no odd bit but 15 and 13, the parities then say that these are 0 too, and a byte 0x00
shifts the rest out. -/
theorem crcFold_zeros_of_drains {s : Crc} (h : Drains s) :
    crcFold s (List.replicate 14 false) = 0x0000#16 := by
  have hsplit : List.replicate 14 false = List.replicate 6 false ++ List.replicate 8 false := rfl
  rw [hsplit, crcFold_append]
  obtain ⟨hupper, hlower⟩ := (drains_crcFold_zeros s 6).mpr h
  generalize hr : crcFold s (List.replicate 6 false) = r at hupper hlower
  have hlow (k : Nat) (hk : k < 6) : oddBit r k = false := hr ▸ oddBit_crcFold s hk hk
  have h15 : oddBit r 7 = false := by simpa [upperParity, hlow] using hupper
  have h13 : oddBit r 6 = false := by simpa [lowerParity, hlow] using hlower
  have hodd : r &&& 0xAAAA#16 = 0x0000#16 &&& 0xAAAA#16 := by
    refine (and_0xAAAA_eq_iff _ _).mpr fun k hk => ?_
    rw [show oddBit 0x0000#16 k = false from BitVec.getLsbD_zero]
    obtain hlt | rfl | rfl : k < 6 ∨ k = 6 ∨ k = 7 := by omega
    · exact hlow k hlt
    · exact h13
    · exact h15
  rw [crcFold_congr_odd hodd (by rfl)]
  exact crcFold_zero_zeros 8

theorem crcFold_zeros_eq_zero_iff (s : Crc) :
    crcFold s (List.replicate 14 false) = 0x0000#16 ↔ Drains s :=
  ⟨fun h => (drains_crcFold_zeros s 14).mp (h ▸ drains_zero), crcFold_zeros_of_drains⟩

/-- A flip that keeps a set and turns `q` round halves the set. -/
theorem card_filter_of_flip {S : Finset Nat} {m k : Nat} (q : Nat → Bool) (hcard : S.card = 2 * k)
    (hS : ∀ a ∈ S, a ^^^ m ∈ S) (hq : ∀ a, q (a ^^^ m) = !q a) :
    (S.filter fun a => q a = false).card = k := by
  have hflip : (S.filter fun a => q a = false).card = (S.filter fun a => ¬ q a = false).card :=
    Finset.card_nbij' (· ^^^ m) (· ^^^ m) (fun a ha => by simp_all) (fun a ha => by simp_all)
      (fun a _ => by simp) (fun a _ => by simp)
  have hsplit := Finset.card_filter_add_card_filter_not (s := S) fun a => q a = false
  omega

theorem upperParity_xor (s t : Crc) : upperParity (s ^^^ t) = (upperParity s ^^ upperParity t) := by
  have : Std.Commutative Bool.xor := ⟨Bool.xor_comm⟩
  simp only [upperParity, oddBit, BitVec.getLsbD_xor]
  ac_rfl

theorem lowerParity_xor (s t : Crc) : lowerParity (s ^^^ t) = (lowerParity s ^^ lowerParity t) := by
  have : Std.Commutative Bool.xor := ⟨Bool.xor_comm⟩
  simp only [lowerParity, oddBit, BitVec.getLsbD_xor]
  ac_rfl

theorem upperParity_flip_bit_3 (n : Nat) :
    upperParity (BitVec.ofNat 16 (n ^^^ 0x8)) = !upperParity (BitVec.ofNat 16 n) := by
  rw [BitVec.ofNat_xor, upperParity_xor, show upperParity (BitVec.ofNat 16 0x8) = true by decide,
    Bool.xor_true]

theorem upperParity_flip_bit_1 (n : Nat) :
    upperParity (BitVec.ofNat 16 (n ^^^ 0x2)) = upperParity (BitVec.ofNat 16 n) := by
  rw [BitVec.ofNat_xor, upperParity_xor, show upperParity (BitVec.ofNat 16 0x2) = false by decide,
    Bool.xor_false]

theorem lowerParity_flip_bit_1 (n : Nat) :
    lowerParity (BitVec.ofNat 16 (n ^^^ 0x2)) = !lowerParity (BitVec.ofNat 16 n) := by
  rw [BitVec.ofNat_xor, lowerParity_xor, show lowerParity (BitVec.ofNat 16 0x2) = true by decide,
    Bool.xor_true]

/-- Flipping bit 3 halves the values once, and bit 1 once more. -/
theorem card_drains : ((Finset.range (2 ^ 16)).filter fun n =>
    upperParity (BitVec.ofNat 16 n) = false ∧
      lowerParity (BitVec.ofNat 16 n) = false).card = 16384 := by
  have hrange {m : Nat} (hm : m < 2 ^ 16) (a : Nat) (ha : a ∈ Finset.range (2 ^ 16)) :
      a ^^^ m ∈ Finset.range (2 ^ 16) :=
    Finset.mem_range.mpr (Nat.xor_lt_two_pow (Finset.mem_range.mp ha) hm)
  rw [← Finset.filter_filter]
  refine card_filter_of_flip (fun n => lowerParity (BitVec.ofNat 16 n))
    (card_filter_of_flip (fun n => upperParity (BitVec.ofNat 16 n)) (Finset.card_range _)
      (hrange (m := 0x8) (by decide)) upperParity_flip_bit_3)
    (fun a ha => ?_) lowerParity_flip_bit_1
  rw [Finset.mem_filter] at ha ⊢
  exact ⟨hrange (by decide) a ha.1, (upperParity_flip_bit_1 a).trans ha.2⟩

/-- Settles O29: (a) to (c) from the update, (d) by the two parities. -/
theorem crcStepIgnoresBitFourteen : Obligations.CrcStepIgnoresBitFourteen := by
  refine ⟨fun s b => ⟨?_, ?_, ?_⟩, ?_, fun s k h => ?_, by decide⟩
  · rw [crcStep_eq]
    exact getLsbD_feed_one _ _
  · simpa only [Bool.xor_false] using
      crcStep_xor_of_eq_zero (t := 0x4000#16) (c := false) (by decide) s b
  · simpa only [Bool.xor_true] using
      crcStep_xor_of_eq_zero (t := 0x8000#16) (c := true) (by decide) s b
  · rw [← card_drains, ← Nat.count_eq_card_filter_range, Nat.count]
    refine List.countP_congr fun n _ => ?_
    rw [beq_iff_eq, decide_eq_true_eq]
    exact crcFold_zeros_eq_zero_iff _
  · exact crcFold_zeros_of_drains ((drains_crcFold_zeros s k).mp (h ▸ drains_zero))

/-! ### The commands -/

/-- A command that ends at once completes in that state and in no other. -/
theorem completes_iff_of_exec {i : Instr} {s u t : State} (he : exec i s = .next u)
    (hb : u.busy = false) : Completes i s t ↔ t = u := by
  have hdrain (k : Nat) : drain k u = u := by
    cases k with
    | zero => rfl
    | succ k => simp [drain, hb]
  constructor
  · rintro ⟨v, k, hv, rfl, -⟩
    rw [he] at hv
    cases hv
    exact hdrain k
  · rintro rfl
    exact ⟨t, 0, he, rfl, hb⟩

theorem completes_crcReset_iff {s t : State} : Completes .crcReset s t ↔
    t = { s with crc := 0x0000#16, cur := none, busy := false } :=
  completes_iff_of_exec (exec_crcReset s) rfl

theorem completes_crcBit_iff {b : Bool} {s t : State} : Completes (.crcBit b) s t ↔
    t = { s with crc := crcStep s.crc b, cur := none, busy := false } :=
  completes_iff_of_exec (exec_crcBit b s) rfl

theorem exists_completesAll_crcBit (bits : List Bool) (s : State) :
    ∃ t, CompletesAll (bits.map .crcBit) s t := by
  induction bits generalizing s with
  | nil => exact ⟨s, rfl⟩
  | cons b bits ih =>
    obtain ⟨t, ht⟩ := ih _
    exact ⟨t, _, completes_crcBit_iff.mpr rfl, ht⟩

theorem CompletesAll.crcBit {bits : List Bool} {s t : State}
    (h : CompletesAll (bits.map .crcBit) s t) : t.crc = crcFold s.crc bits ∧ t.output = s.output := by
  induction bits generalizing s with
  | nil =>
    obtain rfl : s = t := h
    exact ⟨rfl, rfl⟩
  | cons b bits ih =>
    obtain ⟨u, hu, hrest⟩ := h
    obtain rfl := completes_crcBit_iff.mp hu
    exact ih hrest

/-- Settles O32, by induction on the bits: each CRC_BIT completes at once. -/
theorem crcFoldIsDeterministic : Obligations.CrcFoldIsDeterministic := by
  refine ⟨crcFold_nil, crcFold_cons, exists_completesAll_crcBit, fun _ _ _ h => h.crcBit, ?_⟩
  rintro bits s t ⟨u, hu, hrest⟩
  obtain rfl := completes_crcReset_iff.mp hu
  exact hrest.crcBit.1

/-- Settles O33: CRC_RESET never waits, and its opcode has one word. -/
theorem crcResetClearsTheRegister : Obligations.CrcResetClearsTheRegister :=
  ⟨decodeOfEncodeIsTheCommand .crcReset rfl, rejectsOtherWords_of_formatA rfl rfl, exec_crcReset⟩

/-- Settles O34: CRC_BIT never waits, and its opcode has two words. -/
theorem crcBitFoldsOneBit : Obligations.CrcBitFoldsOneBit := by
  refine ⟨decodeOfEncodeIsTheCommand (.crcBit false) rfl,
    decodeOfEncodeIsTheCommand (.crcBit true) rfl,
    rejectsOtherWords (fmt := .B) rfl fun w hle hlt => ?_, exec_crcBit, by decide, by decide,
    by decide⟩
  simp only [Format.operandBits] at hlt
  bv_omega

end Sys2Proof.Machine
end

section
/-! PROOFS. The framer (42_framer.md): its words, and what each of its commands renders and folds.

`State.emitted` is a state with some bits rendered into the buffer and folded. A command emits its bits as
far as their symbols fit (`emitBitsFrom_of_room`); at the first bit that does not fit (`OverflowsAt`) the
block waits (`emitBitsFrom_waits`), or goes on with the buffer empty (`emitBitsFrom_overflows`).
`exec_emitsBits` reads the statement about each framer command off these three. What completed commands
leave follows from the samples and the CRC of completed commands, as a framer command's rendering is the
shape of the bits it folds (`rendering_of_framer`). -/

namespace Sys2Proof.Machine

/-! ### The bits and their symbols -/

theorem shape_append (as bs : List Bool) : shape (as ++ bs) = shape as ++ shape bs :=
  List.flatMap_append

theorem shape_singleton (b : Bool) : shape [b] = bitSymbol b := List.append_nil _

theorem shape_length_le (bits : List Bool) : (shape bits).length ≤ 24 * bits.length := by
  have hcount := shape_length_add_popcount bits
  omega

/-- The low byte's bits, then the high byte's, are the word's bits in the order of their numbers
(R162). -/
theorem wordBits_eq (v : BitVec 16) : wordBits v = (List.range 16).map v.getLsbD := by
  simp [wordBits, byteBits, List.range_succ]

/-! ### One bit -/

/-- `s` after the symbols of `bits` have gone into the buffer and `bits` into the CRC, nothing
delivered (R160). -/
def State.emitted (s : State) (bits : List Bool) : State :=
  { s.copyIn (shape bits) with crc := crcFold s.crc bits }

section
variable (s : State) (bits : List Bool)

@[simp] theorem emitted_ob : (s.emitted bits).ob = writeCells s.ob s.occ (shape bits) := rfl
@[simp] theorem emitted_occ : (s.emitted bits).occ = s.occ + (shape bits).length := rfl

theorem emitted_nil : s.emitted [] = s := copyIn_nil s

end

section
variable {s : State}

theorem emitted_emitted (as bs : List Bool) (h : s.occ ≤ s.ob.length) :
    (s.emitted as).emitted bs = s.emitted (as ++ bs) := by
  simp only [State.emitted, crcFold_append, shape_append, ← copyIn_copyIn h]
  rfl

theorem emitted_buffered (bits : List Bool) (h : s.occ ≤ s.ob.length) :
    (s.emitted bits).buffered = s.buffered ++ shape bits := copyIn_buffered h

theorem State.BufferOk.emitted (h : s.BufferOk) {bits : List Bool}
    (hroom : s.occ + (shape bits).length ≤ 1024) : (s.emitted bits).BufferOk where
  ob_wf := by rw [emitted_ob, writeCells_length (h.ob_wf ▸ hroom), h.ob_wf]
  occ_le := hroom

theorem State.BufferOk.delivering (h : s.BufferOk) (r : Nat) : (s.delivering r).BufferOk :=
  ⟨h.ob_wf, Nat.zero_le _⟩

variable {b : Bool}

theorem emitBit_fits (h : s.occ + (bitSymbol b).length ≤ 1024) :
    emitBit b s = .ran (s.emitted [b]) := by
  rw [emitBit, append_fits h, State.emitted, shape_singleton]
  rfl

theorem emitBit_overflows {r : Nat} (h : 1024 < s.occ + (bitSymbol b).length)
    (hr : s.sinkReady = r + 1) : emitBit b s = .ran ((s.delivering r).emitted [b]) := by
  rw [emitBit, append_overflows h hr, State.emitted, shape_singleton]
  rfl

theorem emitBit_waits (h : 1024 < s.occ + (bitSymbol b).length) (hr : s.sinkReady = 0) :
    emitBit b s = .waits s.offering := by
  rw [emitBit, append_waits h hr]

end

/-! ### A list of bits, from one wait point to the next -/

section
variable {bits rest : List Bool} {b : Bool} {k : Nat} {s u : State}

theorem length_sub_of_drop (h : bits.drop k = b :: rest) : bits.length - k = rest.length + 1 := by
  rw [← List.length_drop, h, List.length_cons]

theorem getD_of_drop (h : bits.drop k = b :: rest) : bits.getD k false = b := by
  rw [List.getD_eq_getElem?_getD, ← List.head?_drop, h]
  rfl

theorem emitBitsFrom_of_ran (h : bits.drop k = b :: rest) (hu : emitBit b s = .ran u) :
    emitBitsFrom bits k s = emitBitsFrom bits (k + 1) u := by
  have hleft : bits.length - (k + 1) = rest.length := by
    rw [Nat.sub_succ, length_sub_of_drop h, Nat.pred_succ]
  simp only [emitBitsFrom, length_sub_of_drop h, hleft, repeatUnits, getD_of_drop h, hu]

theorem emitBitsFrom_of_waits (h : bits.drop k = b :: rest) (hu : emitBit b s = .waits u) :
    emitBitsFrom bits k s = .waits (u.withProgress k) := by
  simp only [emitBitsFrom, length_sub_of_drop h, repeatUnits, getD_of_drop h, hu]

theorem emitBitsFrom_length (bits : List Bool) (s : State) :
    emitBitsFrom bits bits.length s = .ran s := by
  rw [emitBitsFrom, Nat.sub_self, repeatUnits]

/-- Bits whose symbols fit are emitted, and the command goes on behind them. -/
theorem emitBitsFrom_of_room {bs : List Bool} (h : bits.drop k = bs ++ rest) (hs : s.BufferOk)
    (hroom : s.occ + (shape bs).length ≤ 1024) :
    emitBitsFrom bits k s = emitBitsFrom bits (k + bs.length) (s.emitted bs) := by
  induction bs generalizing k s with
  | nil => rw [emitted_nil, List.length_nil, Nat.add_zero]
  | cons b bs ih =>
    have hocc : (s.emitted [b]).occ + (shape bs).length = s.occ + (shape (b :: bs)).length := by
      rw [emitted_occ, Nat.add_assoc, ← List.length_append, ← shape_append, List.singleton_append]
    have hone : s.occ + (shape [b]).length ≤ 1024 := by
      rw [emitted_occ] at hocc
      omega
    have hnext : bits.drop (k + 1) = bs ++ rest := by
      rw [← List.drop_drop, h]
      rfl
    rw [emitBitsFrom_of_ran h (emitBit_fits (shape_singleton b ▸ hone)),
      ih hnext (hs.emitted hone) (hocc ▸ hroom),
      emitted_emitted _ _ (hs.ob_wf ▸ hs.occ_le), List.singleton_append, List.length_cons,
      Nat.add_right_comm, Nat.add_assoc]

theorem emitBitsFrom_fits (hs : s.BufferOk) (hk : k ≤ bits.length)
    (hroom : s.occ + (shape (bits.drop k)).length ≤ 1024) :
    emitBitsFrom bits k s = .ran (s.emitted (bits.drop k)) := by
  rw [emitBitsFrom_of_room (List.append_nil _).symm hs hroom, List.length_drop,
    Nat.add_sub_cancel' hk, emitBitsFrom_length]

/-- At a bit that does not fit, with the sink ready, the command goes on as from an empty buffer. -/
theorem emitBitsFrom_delivers {r : Nat} (h : bits.drop k = b :: rest)
    (hover : 1024 < s.occ + (bitSymbol b).length) (hr : s.sinkReady = r + 1) :
    emitBitsFrom bits k s = emitBitsFrom bits k (s.delivering r) := by
  have hempty : (s.delivering r).occ + (bitSymbol b).length ≤ 1024 := by
    have hle := bitSymbol_length_le b
    rw [delivering_occ]
    omega
  rw [emitBitsFrom_of_ran h (emitBit_overflows hover hr), emitBitsFrom_of_ran h (emitBit_fits hempty)]

end

/-! ### The first bit that does not fit -/

/-- In a buffer that holds `occ` samples, the symbols of the first `k` bits fit and that of bit `k`
does not (R161). -/
structure OverflowsAt (occ : Nat) (bits : List Bool) (k : Nat) : Prop where
  lt : k < bits.length
  fits : occ + (shape (bits.take k)).length ≤ 1024
  full : 1024 < occ + (shape (bits.take (k + 1))).length

theorem exists_overflowsAt {bits : List Bool} {occ : Nat} (hocc : occ ≤ 1024)
    (h : 1024 < occ + (shape bits).length) : ∃ k, OverflowsAt occ bits k := by
  obtain ⟨k, hfits, hfull⟩ := Nat.exists_not_and_succ_of_not_zero_of_exists
    (p := fun n => 1024 < occ + (shape (bits.take n)).length)
    (Nat.not_lt.mpr hocc) ⟨bits.length, by rwa [List.take_length]⟩
  refine ⟨k, ?_, Nat.not_lt.mp hfits, hfull⟩
  by_contra hk
  rw [List.take_of_length_le (Nat.not_lt.mp hk)] at hfits
  exact hfits h

section
variable {bits : List Bool} {k : Nat} {s : State}

theorem OverflowsAt.drop_eq (h : OverflowsAt s.occ bits k) :
    bits.drop k = bits[k]'h.lt :: bits.drop (k + 1) := List.drop_eq_getElem_cons h.lt

theorem OverflowsAt.emitted_full (h : OverflowsAt s.occ bits k) :
    1024 < (s.emitted (bits.take k)).occ + (bitSymbol (bits[k]'h.lt)).length := by
  have hfull := h.full
  rwa [List.take_succ_eq_append_getElem h.lt, shape_append, shape_singleton, List.length_append,
    ← Nat.add_assoc] at hfull

theorem OverflowsAt.emitBitsFrom_zero (h : OverflowsAt s.occ bits k) (hs : s.BufferOk) :
    emitBitsFrom bits 0 s = emitBitsFrom bits k (s.emitted (bits.take k)) := by
  rw [emitBitsFrom_of_room (k := 0) (List.take_append_drop k bits).symm hs h.fits, Nat.zero_add,
    List.length_take_of_le h.lt.le]

theorem OverflowsAt.emitBitsFrom_waits (h : OverflowsAt s.occ bits k) (hs : s.BufferOk)
    (hr : s.sinkReady = 0) :
    emitBitsFrom bits 0 s = .waits ((s.emitted (bits.take k)).offering.withProgress k) := by
  rw [h.emitBitsFrom_zero hs, emitBitsFrom_of_waits h.drop_eq (emitBit_waits h.emitted_full hr)]

theorem OverflowsAt.emitBitsFrom_overflows {r : Nat} (h : OverflowsAt s.occ bits k)
    (hs : s.BufferOk) (hlen : (shape bits).length ≤ 1024) (hr : s.sinkReady = r + 1) :
    emitBitsFrom bits 0 s =
      .ran (((s.emitted (bits.take k)).delivering r).emitted (bits.drop k)) := by
  have hrest : ((s.emitted (bits.take k)).delivering r).occ + (shape (bits.drop k)).length ≤ 1024 := by
    rw [← List.take_append_drop k bits, shape_append, List.length_append] at hlen
    rw [delivering_occ]
    omega
  rw [h.emitBitsFrom_zero hs, emitBitsFrom_delivers h.drop_eq h.emitted_full hr,
    emitBitsFrom_fits ((hs.emitted h.fits).delivering r) h.lt.le hrest]

end

/-! ### What a framer command does -/

theorem exec_emitsBits {i : Instr} {snapshot : Crc} {bits : List Bool} {s : State}
    (he : exec i s = .next (settle (emitBitsFrom bits 0 (s.accept i snapshot))))
    (hs : s.BufferOk) (hlen : (shape bits).length ≤ 1024) : EmitsBits i snapshot bits s := by
  have hocc : s.occ ≤ s.ob.length := hs.ob_wf ▸ hs.occ_le
  have haccepted : (s.accept i snapshot).BufferOk := ⟨hs.ob_wf, hs.occ_le⟩
  refine ⟨fun hroom => ?_, fun hover => ?_⟩
  · rw [he, emitBitsFrom_fits haccepted (Nat.zero_le _) hroom]
    rfl
  · obtain ⟨k, hk⟩ := exists_overflowsAt hs.occ_le hover
    have hk' : OverflowsAt (s.accept i snapshot).occ bits k := hk
    refine ⟨k, hk.lt, hk.fits, hk.full, fun r hr => ?_, fun hr => ?_⟩
    · have hfold : crcFold s.crc bits = crcFold (crcFold s.crc (bits.take k)) (bits.drop k) := by
        rw [← crcFold_append, List.take_append_drop]
      rw [he, hk'.emitBitsFrom_overflows haccepted hlen hr, hfold, ← emitted_buffered (s := s) _ hocc,
        ← Nat.zero_add (shape (bits.drop k)).length]
      rfl
    · rw [he, hk'.emitBitsFrom_waits haccepted hr, ← emitted_buffered (s := s) _ hocc]
      rfl

/-- A word with a command's opcode on top and its operand below is the command's (R81, R86). -/
theorem decode_of_toNat {w : Word} {i : Instr} (h : i.wellFormed = true)
    (hw : w.toNat = i.opcode * 2 ^ 28 + i.operand) : decode w = .ok i :=
  (decode_eq_ok_iff h).mpr (BitVec.eq_of_toNat_eq (hw.trans (encode_toNat h).symm))

theorem decode_frByte (v : BitVec 8) :
    decode (BitVec.ofNat 32 (0x80000000 + v.toNat)) = .ok (.frByte v) := by
  refine decode_of_toNat rfl ?_
  rw [BitVec.toNat_ofNat, Instr.opcode, Instr.operand]
  omega

theorem decode_frWord (v : BitVec 16) :
    decode (BitVec.ofNat 32 (0x90000000 + v.toNat)) = .ok (.frWord v) := by
  refine decode_of_toNat rfl ?_
  rw [BitVec.toNat_ofNat, Instr.opcode, Instr.operand]
  omega

/-- FR_BIT is a list of one bit: where it waits, no bit is done, and CUR says so already. -/
theorem exec_frBit (b : Bool) (s : State) :
    exec (.frBit b) s = .next (settle (emitBitsFrom [b] 0 (s.accept (.frBit b) 0))) := by
  suffices h : emitBit b (s.accept (.frBit b) 0) = emitBitsFrom [b] 0 (s.accept (.frBit b) 0) from
    congrArg (fun f => Host.Outcome.next (settle f)) h
  rcases emitBit_cases b (s.accept (.frBit b) 0) with ⟨u, -, he⟩ | ⟨u, hu, he⟩
  · rw [he, emitBitsFrom_of_ran rfl he]
    exact (emitBitsFrom_length [b] _).symm
  · obtain ⟨rfl, -, -⟩ := append_waited hu
    rw [he, emitBitsFrom_of_waits rfl he]
    exact congrArg Flow.waits (withProgress_same (c := ⟨.frBit b, 0, 0⟩) rfl).symm

theorem exec_frByte (v : BitVec 8) (s : State) :
    exec (.frByte v) s = .next (settle (emitBitsFrom (byteBits v) 0 (s.accept (.frByte v) 0))) := rfl

theorem exec_frWord (v : BitVec 16) (s : State) :
    exec (.frWord v) s = .next (settle (emitBitsFrom (wordBits v) 0 (s.accept (.frWord v) 0))) := rfl

theorem exec_frCrcWord (s : State) :
    exec .frCrcWord s =
      .next (settle (emitBitsFrom (wordBits s.crc) 0 (s.accept .frCrcWord s.crc))) := rfl

/-- An empty buffer takes the symbols of a whole word (R162). -/
theorem shape_length_le_cap {bits : List Bool} (h : bits.length ≤ 16) : (shape bits).length ≤ 1024 := by
  have hle := shape_length_le bits
  omega

/-- Settles O50: a list of one bit. -/
theorem frBitRendersAndFolds : Obligations.FrBitRendersAndFolds := by
  refine ⟨decodeOfEncodeIsTheCommand (.frBit false) rfl, decodeOfEncodeIsTheCommand (.frBit true) rfl,
    rejectsOtherWords (fmt := .B) rfl fun w hle hlt => ?_, fun b s hob hocc =>
      exec_emitsBits (exec_frBit b s) ⟨hob, hocc⟩ (shape_length_le_cap (by simp))⟩
  simp only [Format.operandBits] at hlt
  bv_omega

/-- Settles O51: the byte's list of bits. -/
theorem frByteRendersAndFolds : Obligations.FrByteRendersAndFolds := by
  refine ⟨decode_frByte,
    rejectsOtherWords (fmt := .C) rfl fun w _ hlt => hlt, fun v s hob hocc => ⟨?_, ?_⟩⟩
  · exact exec_emitsBits (exec_frByte v s) ⟨hob, hocc⟩ (shape_length_le_cap (by simp))
  · rw [shape_length_add_popcount, byteBits_length]

/-- Settles O52: the word's list of bits, in the order of their numbers. -/
theorem frWordRendersAndFolds : Obligations.FrWordRendersAndFolds := by
  refine ⟨decode_frWord,
    rejectsOtherWords (fmt := .W) rfl fun w _ hlt => hlt, fun v s hob hocc => ?_⟩
  rw [← wordBits_eq, shape_length_add_popcount, wordBits_length]
  exact ⟨exec_emitsBits (exec_frWord v s) ⟨hob, hocc⟩ (shape_length_le_cap (by simp)), rfl⟩

/-- Settles O53: the list of bits is that of the CRC before the first fold. -/
theorem frCrcWordEmitsTheStartingCrc : Obligations.FrCrcWordEmitsTheStartingCrc := by
  refine ⟨decodeOfEncodeIsTheCommand .frCrcWord rfl, rejectsOtherWords_of_formatA rfl rfl,
    fun s hob hocc => ?_⟩
  rw [← wordBits_eq]
  exact exec_emitsBits (exec_frCrcWord s) ⟨hob, hocc⟩ (shape_length_le_cap (by simp))

/-! ### Completed framer commands -/

/-- A framer command appends the symbols of the bits it folds. -/
theorem rendering_of_framer {i : Instr} (hi : isFramer i = true) (crc : Crc) :
    rendering crc i = shape (foldedBits crc i) := by
  cases i with
  | frBit b => rfl
  | frByte v => rfl
  | frWord v => rfl
  | frCrcWord => rfl
  | nop | symBit b | symPreamble n | symSync | symSilence | crcReset | crcBit b | flush =>
    simp [isFramer] at hi

theorem crcAfter_of_framer {i : Instr} (hi : isFramer i = true) (crc : Crc) :
    crcAfter crc i = crcFold crc (foldedBits crc i) :=
  if_neg (by rintro rfl; simp [isFramer] at hi)

theorem renderingAll_of_framer {is : List Instr} (his : ∀ i ∈ is, isFramer i = true) (crc : Crc) :
    renderingAll crc is = shape (foldedBitsAll crc is) := by
  induction is generalizing crc with
  | nil => rfl
  | cons i is ih =>
    obtain ⟨hi, his⟩ := List.forall_mem_cons.mp his
    rw [renderingAll, foldedBitsAll, shape_append, rendering_of_framer hi, ih his]

theorem CompletesAll.crc_of_framer {is : List Instr} {s t : State} (h : CompletesAll is s t)
    (his : ∀ i ∈ is, isFramer i = true) (hs : s.Idle) :
    t.crc = crcFold s.crc (foldedBitsAll s.crc is) := by
  induction is generalizing s with
  | nil =>
    obtain rfl : s = t := h
    rfl
  | cons i is ih =>
    obtain ⟨hi, his⟩ := List.forall_mem_cons.mp his
    obtain ⟨u, hu, hrest⟩ := h
    rw [ih hrest his (hu.idle_output hs).1, hu.crc hs, foldedBitsAll, crcFold_append,
      ← crcAfter_of_framer hi]

/-- Settles O54: a completed FR_BYTE has added its rendering, the shape of its eight bits. -/
theorem framedByteSampleCount : Obligations.FramedByteSampleCount := by
  intro v s t hs hb _ h
  obtain ⟨-, hout⟩ := h.idle_output (hs.idle hb)
  have hlen : t.output.length = s.output.length + (shape (byteBits v)).length := by
    rw [hout, rendering_of_framer rfl, List.length_append]
    rfl
  refine ⟨by simp [appendUnits], hout, ?_, ?_⟩
  · rw [hlen, shape_length, byteBits, List.map_map]
    rfl
  · rw [hlen, Nat.add_assoc]
    exact congrArg _ ((shape_length_add_popcount (byteBits v)).trans (by rw [byteBits_length]))

/-- Settles O55, by induction on the list of commands: each adds the symbols of its bits and folds
them. -/
theorem framerSerialOrder : Obligations.FramerSerialOrder := by
  intro is s t his hs hb _ h
  have hidle := hs.idle hb
  exact ⟨h.crc_of_framer his hidle,
    renderingAll_of_framer his s.crc ▸ (h.idle_output hidle).2⟩

end Sys2Proof.Machine
end

section
/-! PROOFS. The host's port and the control commands (43_control.md): what becomes of a command word,
what the registers read and do when written, what ends a command in flight, and NOP and FLUSH.

Two facts carry the statements about commands. `State.Idle.exec_settles` says how far a command word
gets when it is executed. Where the sink's turn leaves BUSY at 0, the command in flight has folded and
appended all that it owed (`State.FoldsTo.idle_crc`, `State.WaitsOn.promised_sinkTurn`). -/

namespace Sys2Proof.Machine

/-! ### Command words -/

section
variable {w : Word} {s : State}

theorem writeCmd_of_busy (hb : s.busy = true) : writeCmd w s = .next { s with held := some w } :=
  if_pos hb

theorem writeCmd_of_not_busy (hb : s.busy = false) : writeCmd w s = onCmdWrite w s := by
  simp [writeCmd, hb]

theorem onCmdWrite_of_err (herr : s.err = true) :
    onCmdWrite w s = .next { s with cmdIndex := s.cmdIndex + 1 } :=
  if_pos herr

theorem onCmdWrite_of_decode_ok {i : Instr} (herr : s.err = false) (hd : decode w = .ok i) :
    onCmdWrite w s = exec i { s with cmdIndex := s.cmdIndex + 1 } := by
  simp [onCmdWrite, herr, hd]

theorem access_cmd_executes {i : Instr} (hb : s.busy = false) (herr : s.err = false)
    (hd : decode w = .ok i) :
    access (.write 32 0x00 w) s = exec i { s with cmdIndex := s.cmdIndex + 1 } := by
  rw [access_write_cmd, writeCmd_of_not_busy hb, onCmdWrite_of_decode_ok herr hd]

/-- The codes of R221 as numbers. -/
theorem cmdErrorCode_eq_ite (e : CmdError) :
    cmdErrorCode e = if e = .illegalOpcode then 1 else 2 := by
  cases e with
  | illegalOpcode => rfl
  | reservedField => rfl

/-! ### The host's turn -/

variable {rest : List Turn}

theorem step_host_access {a : Access} {as : List Access} (hturns : s.turns = .host :: rest)
    (hr : s.rst = false) (hheld : s.held = none) (hhost : s.host = a :: as) :
    step s = access a { s with turns := rest, host := as } := by
  simp [step_host hturns, hostTurn, hr, hheld, hhost]

theorem step_host_held (hturns : s.turns = .host :: rest) (hr : s.rst = false) (hb : s.busy = false)
    (hheld : s.held = some w) : step s = onCmdWrite w { s with turns := rest, held := none } := by
  simp [step_host hturns, hostTurn, hr, hb, hheld]

theorem step_host_held_busy (hturns : s.turns = .host :: rest) (hr : s.rst = false)
    (hb : s.busy = true) (hheld : s.held = some w) : step s = .next { s with turns := rest } := by
  simp [step_host hturns, hostTurn, hr, hb, hheld]

end

/-- Settles O14: the host's turn passes the word, written or held, to `onCmdWrite`, which executes
it. -/
theorem decodedCommandRunsAtItsStep : Obligations.DecodedCommandRunsAtItsStep := by
  intro s rest w as i hturns hr hb herr hd
  refine ⟨fun hheld hhost => ?written, fun hheld => ?held⟩
  case written =>
    exact (step_host_access hturns hr hheld hhost).trans (access_cmd_executes hb herr hd)
  case held => exact (step_host_held hturns hr hb hheld).trans (onCmdWrite_of_decode_ok herr hd)

theorem decode_of_decodeTableWord {nbits w : Nat} {i : Instr}
    (h : decodeTableWord nbits w = some i) : decode (tableWord nbits w) = .ok i := by
  unfold decodeTableWord at h
  split at h
  next j hd => rw [hd, Option.some.inj h]
  next => cases h

/-- Settles O15: the placed word is the host's next access and the host's turn is next, so the word
runs as O14 says. -/
theorem placedCommandRunsAtTheNextStep : Obligations.PlacedCommandRunsAtTheNextStep := by
  intro s nbits w i hr hb herr htable
  obtain ⟨hnext, -⟩ := decodedCommandRunsAtItsStep (s.withFetchWord nbits w) s.turns
    (tableWord nbits w) s.host i rfl hr hb herr (decode_of_decodeTableWord htable)
  exact hnext rfl rfl

/-! ### How far an executed command gets -/

/-- An executed command leaves the block idle, or waits for the sink itself (R192, R57). -/
theorem State.Idle.exec_settles {s : State} (h : s.Idle) (i : Instr) :
    ∃ t, exec i s = .next t ∧ (t.Idle ∨ ∃ c, t.WaitsOn c ∧ c.cmd = i) := by
  rcases Nat.eq_zero_or_pos (waitPoints i) with h0 | hpos
  · exact ⟨_, exec_of_waitPoints_zero h0 s, .inl ⟨⟨h.ob_wf, h.occ_le⟩, rfl, rfl, h.pend⟩⟩
  · obtain ⟨t, ht, hadv⟩ := h.exec_advances hpos
    exact ⟨t, ht, hadv.settled.imp_right fun ⟨j, hj⟩ => ⟨_, hj, rfl⟩⟩

/-- Settles O16: a CMD write by the four branches of R192, and what the executed one leaves. -/
theorem commandWordLifecycle : Obligations.CommandWordLifecycle := by
  refine ⟨fun w s hb => writeCmd_of_busy hb, fun w s hb herr => ?ignored,
    fun w s e hb herr hd => ?rejected, fun w s i => access_cmd_executes, fun i s hs hb => ?outcome⟩
  case ignored => rw [access_write_cmd, writeCmd_of_not_busy hb, onCmdWrite_of_err herr]
  case rejected =>
    rw [access_write_cmd, writeCmd_of_not_busy hb, onCmdWrite_of_decode_error herr hd,
      cmdErrorCode_eq_ite]
  case outcome =>
    obtain ⟨t, ht, hi | ⟨c, hc, hcmd⟩⟩ := (hs.idle hb).exec_settles i
    · exact ⟨t, ht, .inl ⟨hi.busy, hi.cur⟩⟩
    · exact ⟨t, ht, .inr ⟨hc.busy, ⟨c, hc.cur, hcmd⟩, _, hc.pend⟩⟩

/-! ### What ends a command in flight -/

/-- Where no command is in flight any more, no bit is left to fold. -/
theorem State.FoldsTo.idle_crc {r : Crc} {s : State} (h : s.FoldsTo r) (hb : s.busy = false) :
    s.Idle ∧ s.crc = r := by
  rcases h.settled with hi | ⟨c, hc⟩
  · have hfold := h.fold
    rw [State.owedBits, hi.cur] at hfold
    exact ⟨hi, hfold⟩
  · simp [hc.busy] at hb

/-- Settles O17, by the four things a step can do to the samples: one keeps BUSY, one is the reset,
one needs BUSY at 0 before, and in the last the sink's turn lets the command run to its end. -/
theorem onlyResetStopsACommandEarly : Obligations.OnlyResetStopsACommandEarly := by
  intro s t turn rest hs hb hturns hstep hbt
  cases step_move hstep with
  | kept same => simp [busy_of_sampleSide same, hb] at hbt
  | reset cause values _ => exact .inr ⟨cause, values⟩
  | executed _ _ _ _ _ _ _ busy => simp [hb] at busy
  | taken c rest' hsink offer run =>
    subst run
    obtain ⟨rfl, rfl⟩ := List.cons.inj (hturns.symm.trans hsink)
    have hs' : { s with turns := rest }.Inv := hs.with_environment hs.held_none
    obtain ⟨f, hf⟩ := hs'.waitsOn_of_pend offer
    have hfolds := sinkTurn_foldsTo ⟨.inr ⟨f, hf⟩, rfl⟩ hb
    obtain ⟨hi, hcrc⟩ := hfolds.idle_crc hbt
    exact .inl ⟨rfl, (promised_of_cur_none hi.cur).symm.trans hf.promised_sinkTurn, hcrc⟩

/-! ### Register writes -/

/-- Settles O18: the four writes, and the host's turn while its CMD write is held. -/
theorem registerWriteEffects : Obligations.RegisterWriteEffects := by
  refine ⟨fun s v => access_write_status v s, fun s v => access_write_crcr v s, fun s v => ?_,
    fun s v => access_write_cmd v s,
    fun s w rest hturns hr hb hheld => step_host_held_busy hturns hr hb hheld⟩
  rw [access_write_ctrl, writeCtrl]

theorem access_ctrl_of_bit_clear {v : Word} (hv : v.getLsbD 0 = false) (s : State) :
    access (.write 32 0x0C v) s = .next s :=
  congrArg _ (if_neg (Bool.eq_false_iff.mp hv))

theorem access_ctrl_of_bit_set {v : Word} (hv : v.getLsbD 0 = true) (s : State) :
    access (.write 32 0x0C v) s = .next (softReset s) :=
  congrArg _ (if_pos hv)

/-- In an idle state without error a soft reset finds BUSY, ERR, ERRCODE, CUR and PEND at their
reset values (R195). -/
theorem softReset_of_idle {s : State} (h : s.Idle) (herr : s.err = false) (hcode : s.errCode = 0) :
    softReset s =
      { s with crc := 0, occ := 0, ob := (softReset s).ob, draws := (softReset s).draws } := by
  simp [softReset, Config.crcResetVal, h.busy, h.cur, h.pend, herr, hcode]

/-- Settles O9: a CTRL write is a soft reset or nothing, by bit 0. -/
theorem ctrlWriteOneResetsWriteZeroDoesNothing :
    Obligations.CtrlWriteOneResetsWriteZeroDoesNothing := by
  refine ⟨fun s v hv => access_ctrl_of_bit_clear hv s,
    fun s v hv => ⟨_, access_ctrl_of_bit_set hv s, softReset_resetValues s⟩, access_read_ctrl,
    fun s v hv hs hb herr => ⟨_, access_ctrl_of_bit_set hv s, ?_, List.take_zero, rfl⟩⟩
  exact softReset_of_idle (hs.idle hb) herr (hs.no_err_no_code herr)

/-! ### Register reads -/

/-- The fields of STATUS do not overlap, so its word is their sum (R31). -/
theorem statusWord_toNat {occ : Nat} (hocc : occ ≤ 1024) (code : BitVec 4) (err busy : Bool) :
    (statusWord occ code err busy).toNat =
      occ * 2 ^ 16 + code.toNat * 2 ^ 4 + err.toNat * 2 + busy.toNat := by
  have hcode := code.isLt
  have herr : err.toNat < 2 := err.toNat_lt
  have hbusy : busy.toNat < 2 ^ 1 := busy.toNat_lt
  have hword : (statusWord occ code err busy).toNat =
      2 ^ 16 * occ ||| (2 ^ 4 * code.toNat ||| (2 ^ 1 * err.toNat ||| busy.toNat)) := by
    simp only [statusWord, BitVec.toNat_or, BitVec.toNat_shiftLeft, BitVec.toNat_setWidth,
      BitVec.toNat_ofNat, BitVec.toNat_ofBool, Nat.shiftLeft_eq, Nat.or_assoc]
    congr <;> omega -- the word cuts no field
  rw [hword, ← Nat.two_pow_add_eq_or_of_lt hbusy, ← Nat.two_pow_add_eq_or_of_lt (i := 4) (by omega),
    ← Nat.two_pow_add_eq_or_of_lt (i := 16) (by omega)]
  omega

theorem crcrWord_toNat (crc : Crc) : (crcrWord crc).toNat = crc.toNat :=
  BitVec.toNat_setWidth_of_le (by decide)

section
variable {s : State}

theorem readStatus_of_not_busy (hb : s.busy = false) :
    readStatus s = s.answer (statusWord s.occ s.errCode s.err false) := by
  simp [readStatus, hb]

theorem readStatus_of_busy (hb : s.busy = true) :
    readStatus s = { s with draws := s.draws + 1 }.answer
      (statusWord (Config.busyOcc s.draws).val s.errCode s.err true) := by
  simp [readStatus, hb]

theorem readCrcr_of_not_busy (hb : s.busy = false) : readCrcr s = s.answer (crcrWord s.crc) := by
  simp [readCrcr, hb]

theorem readCrcr_of_busy (hb : s.busy = true) :
    readCrcr s = { s with draws := s.draws + 1 }.answer (crcrWord (Config.busyCrc s.draws)) :=
  if_pos hb

end

/-- Settles O20: the four reads, STATUS and CRCR once for each value of BUSY. -/
theorem registerReadValues : Obligations.RegisterReadValues := by
  refine ⟨access_read_cmd, access_read_ctrl, fun s hb hocc => ?statusIdle, fun s hb => ?crcrIdle,
    fun s hb => ?statusBusy, fun s hb => ?crcrBusy⟩
  case statusIdle =>
    exact ⟨_, congrArg _ (readStatus_of_not_busy hb),
      (statusWord_toNat hocc s.errCode s.err false).trans (Nat.add_zero _)⟩
  case crcrIdle => exact ⟨_, congrArg _ (readCrcr_of_not_busy hb), crcrWord_toNat s.crc⟩
  case statusBusy =>
    have hdraw : (Config.busyOcc s.draws).val ≤ 1024 :=
      Nat.le_of_lt_succ (Config.busyOcc s.draws).isLt
    exact ⟨_, _, hdraw, congrArg _ (readStatus_of_busy hb),
      statusWord_toNat hdraw s.errCode s.err true⟩
  case crcrBusy =>
    refine ⟨_, ?_, congrArg _ (readCrcr_of_busy hb)⟩
    rw [crcrWord_toNat]
    exact (Config.busyCrc s.draws).isLt

/-! ### The control commands -/

theorem State.Idle.completed_eq {s : State} (h : s.Idle) :
    { s with cur := none, busy := false } = s := by
  rw [← h.cur, ← h.busy]

/-- Settles O56: NOP only completes, which an idle block does not show. -/
theorem nopChangesNothing : Obligations.NopChangesNothing := by
  refine ⟨decodeOfEncodeIsTheCommand .nop rfl, rejectsOtherWords_of_formatA rfl rfl, exec_nop,
    fun s hs hb => ?_⟩
  rw [exec_nop, (hs.idle hb).completed_eq]

theorem exec_flush (s : State) :
    exec .flush s = .next (settle (flushBuffer (s.accept .flush 0))) := rfl

section
variable {s : State}

theorem flushBuffer_empty (h : s.occ = 0) : flushBuffer s = .ran s := by
  simp [flushBuffer, h]

theorem flushBuffer_delivers {r : Nat} (h : 0 < s.occ) (hr : s.sinkReady = r + 1) :
    flushBuffer s = .ran (s.delivering r) := by
  simp [flushBuffer, h, deliver, hr, State.delivering]

theorem flushBuffer_waits (h : 0 < s.occ) (hr : s.sinkReady = 0) :
    flushBuffer s = .waits s.offering := by
  simp [flushBuffer, h, deliver, hr, State.offering]

end

/-- Settles O57, by the three cases of a flush. -/
theorem flushDeliversTheBuffer : Obligations.FlushDeliversTheBuffer := by
  refine ⟨decodeOfEncodeIsTheCommand .flush rfl, rejectsOtherWords_of_formatA rfl rfl,
    fun s h => ?empty, fun s r h hr => ?delivers, fun s h hr => ?waits⟩
  case empty =>
    rw [exec_flush, flushBuffer_empty (s := s.accept .flush 0) h]
    rfl
  case delivers =>
    rw [exec_flush, flushBuffer_delivers (s := s.accept .flush 0) h hr]
    rfl
  case waits =>
    rw [exec_flush, flushBuffer_waits (s := s.accept .flush 0) h hr]
    rfl

end Sys2Proof.Machine
end

section
/-! PROOFS. Errors (60_exceptions.md): what raises a command error, what keeps it and what clears it,
and a reset that wins over a command write.

`step_errMove` says once what a step of any agent does to ERR and ERRCODE: it keeps them, resets them,
or records the error of a rejected word. No body of a command touches them (`errKept_kept`, R220). -/

namespace Sys2Proof.Machine

/-! ### Execution keeps the error flags -/

/-- ERR and ERRCODE are in `t` what they are in `s`. -/
def State.ErrKept (s t : State) : Prop := t.err = s.err ∧ t.errCode = s.errCode

theorem State.ErrKept.settle {s : State} {f : Flow} (h : s.ErrKept f.state) :
    s.ErrKept (settle f) := by
  cases f with
  | ran u => exact h
  | waits u => exact h

theorem errKept_kept (s : State) (i : Instr) : KeptByBody i s.ErrKept where
  append {l u} _ h := by
    rcases append_cases l u with ⟨-, he⟩ | ⟨r, -, -, he⟩ | ⟨-, -, he⟩ <;> rw [he] <;> exact h
  set_crc _ h := h
  progress _ h := h
  flush _ u h := by
    rcases flushBuffer_cases u with ⟨-, he⟩ | ⟨r, -, -, he⟩ | ⟨-, -, he⟩ <;> rw [he] <;> exact h

theorem settle_resumeBody_errKept (c : InFlight) (s : State) :
    s.ErrKept (settle (resumeBody c s)) :=
  ((errKept_kept s c.cmd).resumeBody ⟨rfl, rfl⟩).settle

theorem exec_errKept {i : Instr} {s t : State} (h : exec i s = .next t) : s.ErrKept t := by
  rw [exec_eq_resume] at h
  cases h
  exact settle_resumeBody_errKept ⟨i, 0, startSnapshot s i⟩ (s.accept i (startSnapshot s i))

theorem sinkTurn_errKept (s : State) : s.ErrKept (sinkTurn s) := by
  cases hp : s.pend with
  | none => constructor <;> simp [sinkTurn, hp]
  | some c =>
    cases hc : s.cur with
    | none => constructor <;> simp [sinkTurn, hp, resume, hc]
    | some f =>
      rw [sinkTurn_of_offer hp hc]
      exact settle_resumeBody_errKept f (s.acceptChunk c)

/-! ### What a step does to the error flags -/

/-- What a step from `s` to `t` does to ERR and ERRCODE. -/
inductive State.ErrMove (s t : State) : Prop where
  | kept (same : s.ErrKept t)
  | reset (cause : s.ResetMove) (values : t.ResetValues)
  /-- The host's word, held or written now, does not decode, and no error stands yet (R222). -/
  | raised (w : Word) (e : CmdError) (clear : s.err = false) (decoded : decode w = .error e)
      (set : t.err = true) (code : t.errCode = cmdErrorCode e)
      (source : s.held = some w ∨ ∃ as, s.host = .write 32 0x00 w :: as)

theorem onCmdWrite_errKept_or_raised {w : Word} {s t : State} (h : onCmdWrite w s = .next t) :
    s.ErrKept t ∨ s.err = false ∧
      ∃ e, decode w = .error e ∧ t.err = true ∧ t.errCode = cmdErrorCode e := by
  rcases onCmdWrite_cases w s with ⟨-, he⟩ | ⟨herr, e, hd, he⟩ | ⟨-, i, -, he⟩ <;> rw [he] at h
  · cases h; exact .inl ⟨rfl, rfl⟩
  · cases h; exact .inr ⟨herr, e, hd, rfl, rfl⟩
  · exact .inl (exec_errKept h :)

/-- A read that is not refused changes the host's answers and the draws, and nothing else (R193). -/
theorem access_read_frame {width offset : Nat} {s t : State}
    (h : access (.read width offset) s = .next t) :
    ∃ v d, t = { s with reads := s.reads ++ [v], draws := d } := by
  cases hr : registerAt width offset with
  | none => simp [access_read_undefined hr] at h
  | some r =>
    rw [access_read_at hr] at h
    cases h
    exact regRead_frame r s

/-- An access that is not refused keeps the error flags, unless it is a CMD write that is not held or a
CTRL write that resets. -/
theorem access_errKept_or_written {a : Access} {s t : State} (h : access a s = .next t) :
    s.ErrKept t ∨ (∃ w, a = .write 32 0x00 w ∧ onCmdWrite w s = .next t) ∨
      ∃ v, a = .write 32 0x0C v ∧ v.getLsbD 0 = true ∧ t = softReset s := by
  cases a with
  | read width offset =>
    obtain ⟨v, d, rfl⟩ := access_read_frame h
    exact .inl ⟨rfl, rfl⟩
  | write width offset v =>
    obtain rfl := access_write_width h
    rcases access_write_cases h with ⟨rfl, hw⟩ | ⟨-, rfl⟩ | ⟨rfl, rfl⟩
    · cases hb : s.busy with
      | true =>
        rw [writeCmd_of_busy hb] at hw
        cases hw
        exact .inl ⟨rfl, rfl⟩
      | false => exact .inr (.inl ⟨v, rfl, writeCmd_of_not_busy hb ▸ hw⟩)
    · exact .inl ⟨rfl, rfl⟩
    · by_cases hv : v.getLsbD 0 = true
      · exact .inr (.inr ⟨v, rfl, hv, if_pos hv⟩)
      · rw [writeCtrl, if_neg hv]
        exact .inl ⟨rfl, rfl⟩

theorem onCmdWrite_errMove {w : Word} {s u t : State} (h : onCmdWrite w u = .next t)
    (hsame : s.ErrKept u) (hsource : s.held = some w ∨ ∃ as, s.host = .write 32 0x00 w :: as) :
    s.ErrMove t := by
  obtain ⟨herr, hcode⟩ := hsame
  rcases onCmdWrite_errKept_or_raised h with ⟨herr', hcode'⟩ | ⟨hclear, e, hd, hset, he⟩
  · exact .kept ⟨herr'.trans herr, hcode'.trans hcode⟩
  · exact .raised w e (herr.symm.trans hclear) hd hset he hsource

theorem hostTurn_errMove {s t : State} {rest : List Turn} (hturn : s.turns = .host :: rest)
    (h : hostTurn { s with turns := rest } = .next t) : s.ErrMove t := by
  rcases hostTurn_cases h with rfl | ⟨w, hheld, -, -, hw⟩ | ⟨a, as, hfree, hnext, -, ha⟩
  · exact .kept ⟨rfl, rfl⟩
  · exact onCmdWrite_errMove hw ⟨rfl, rfl⟩ (.inl hheld)
  · rcases access_errKept_or_written ha with hk | ⟨w, rfl, hw⟩ | ⟨v, rfl, hv, rfl⟩
    · exact .kept hk
    · exact onCmdWrite_errMove hw ⟨rfl, rfl⟩ (.inr ⟨as, hnext⟩)
    · exact .reset (.ctrlWritten rest v as hturn hfree hnext hv) (softReset_resetValues _)

theorem releaseReset_errMove {s : State} {rest : List Turn} (hturn : s.turns = .rstRelease :: rest) :
    s.ErrMove (releaseReset { s with turns := rest }) := by
  by_cases hr : s.rst = true
  · rw [releaseReset, if_pos hr]
    exact .reset (.rstReleased rest hturn hr) ⟨rfl, rfl, rfl, rfl, rfl, rfl, rfl⟩
  · rw [releaseReset, if_neg hr]
    exact .kept ⟨rfl, rfl⟩

/-- Everything a step can do to the error flags. -/
theorem step_errMove {s t : State} (h : step s = .next t) : s.ErrMove t := by
  cases hturns : s.turns with
  | nil =>
    rw [step_nil hturns] at h
    cases h
    exact .kept ⟨rfl, rfl⟩
  | cons m rest =>
    rw [step_cons hturns] at h
    cases m with
    | host => exact hostTurn_errMove hturns h
    | sink => cases h; exact .kept (sinkTurn_errKept { s with turns := rest })
    | rstAssert =>
      cases h
      exact .reset (.rstAsserted rest hturns) (assertReset_resetValues _)
    | rstAssertWithWrite =>
      obtain ⟨u, rfl⟩ := assertResetWithWrite_cases h
      exact .reset (.rstAssertedWithWrite rest hturns) (assertReset_resetValues u)
    | rstRelease => cases h; exact releaseReset_errMove hturns

/-- Settles O24: the bodies keep the flags, and of the three things a step can do to them only the
rejection of a word sets ERR. -/
theorem executionNeverFails : Obligations.ExecutionNeverFails := by
  refine ⟨fun i s => ?exec, fun s t hclear hstep hset => ?step⟩
  case exec =>
    obtain ⟨t, ht⟩ := exec_next i s
    obtain ⟨herr, hcode⟩ := exec_errKept ht
    exact ⟨t, ht, herr, hcode⟩
  case step =>
    cases step_errMove hstep with
    | kept same =>
      obtain ⟨herr, -⟩ := same
      simp [herr, hclear] at hset
    | reset _ values => simp [values.err] at hset
    | raised w e _ decoded _ code source =>
      exact ⟨w, e, decoded, code.trans (cmdErrorCode_eq_ite e), source⟩

/-! ### A rejected word, and the block after it -/

/-- Settles O22: BUSY at 0 leaves nothing in flight, and the rejected word only raises its error. -/
theorem commandErrorsArePrecise : Obligations.CommandErrorsArePrecise := by
  intro w e s hs hb herr hd
  have hi := hs.idle hb
  refine ⟨hi.cur, hi.pend, _, onCmdWrite_of_decode_error herr hd, rfl, rfl, ?_, ?_⟩
  · rintro rfl; rfl
  · rintro rfl; rfl

/-- While an error stands, no command is in flight (R35). -/
theorem State.Inv.idle_of_err {s : State} (h : s.Inv) (herr : s.err = true) : s.Idle := by
  refine h.idle (Bool.eq_false_iff.mpr fun hb => ?_)
  simp [h.busy_no_err hb] at herr

/-- Where an error stands, a step resets the block or touches neither the flags nor the samples: no
command word is executed, and nothing is on offer to the sink. -/
theorem State.Inv.step_of_err {s t : State} (h : s.Inv) (herr : s.err = true)
    (hstep : step s = .next t) :
    (s.ResetMove ∧ t.ResetValues) ∨ (s.ErrKept t ∧ t.sampleSide = s.sampleSide) := by
  cases step_errMove hstep with
  | reset cause values => exact .inl ⟨cause, values⟩
  | raised _ _ clear => simp [clear] at herr
  | kept flags =>
    cases step_move hstep with
    | kept samples => exact .inr ⟨flags, samples⟩
    | reset cause values _ => exact .inl ⟨cause, values⟩
    | executed _ _ _ _ _ _ _ _ clear => simp [clear] at herr
    | taken c _ _ offer => simp [(h.idle_of_err herr).pend] at offer

/-- Settles O23: the block is idle, so the accesses are those of an idle block with ERR at 1; and a step
that is no reset leaves the flags and the samples alone. -/
theorem errorStopsTheBlockUntilReset : Obligations.ErrorStopsTheBlockUntilReset := by
  refine ⟨fun w s hs herr => ?ignored, fun s hs herr => ⟨?status, ?crcr, ?ctrl, rfl⟩,
    fun s t hs herr hstep => ?step⟩
  case ignored =>
    rw [access_write_cmd, writeCmd_of_not_busy (hs.idle_of_err herr).busy, onCmdWrite_of_err herr]
  case status =>
    rw [access_read_status, readStatus_of_not_busy (hs.idle_of_err herr).busy, State.answer, herr]
  case crcr =>
    rw [access_read_crcr, readCrcr_of_not_busy (hs.idle_of_err herr).busy, State.answer]
  case ctrl => exact access_ctrl_of_bit_set (by decide) s
  case step =>
    refine (hs.step_of_err herr hstep).imp_right fun ⟨⟨hflag, hcode⟩, samples⟩ =>
      ⟨hflag.trans herr, hcode, (congrArg State.crc samples :), (congrArg State.ob samples :),
        (congrArg State.occ samples :), ?_, delivered_of_sampleSide samples⟩
    rw [busy_of_sampleSide samples, (hs.idle_of_err herr).busy]

/-! ### A reset that arrives with a command write -/

/-- The host's CMD write is taken off its list and counted, and RST is asserted all the same (R225). -/
theorem assertResetWithWrite_cmd {s : State} {w : Word} {as : List Access} (hr : s.rst = false)
    (hheld : s.held = none) (hhost : s.host = .write 32 0x00 w :: as) :
    assertResetWithWrite s =
      .next (assertReset { s with host := as, cmdIndex := s.cmdIndex + 1 }) := by
  simp [assertResetWithWrite, hr, hheld, hhost]

/-- Settles O10: the move is RST asserted in the state that has lost the write. -/
theorem resetWinsOverACommandWrite : Obligations.ResetWinsOverACommandWrite := by
  intro s rest w as hturns hr hheld hhost
  have hstep : step s = _ := (step_rstAssertWithWrite hturns).trans
    (assertResetWithWrite_cmd (s := { s with turns := rest }) hr hheld hhost)
  exact ⟨_, hstep, assertReset_resetValues _, rfl, rfl, rfl, by simp [hheld]⟩

end Sys2Proof.Machine
end

section
/-! PROOFS. Reset and hazards (70_reset_and_hazards.md): the two resets at any moment, a host that waits
on a held write, and the completion of every command by a sink that goes on accepting.

A bounded wait rests on one fact (`Progress.lt_of_refilled`): the sink's acceptance empties the buffer, so
a command that waits once more has appended since, and its unit count has grown. -/

namespace Sys2Proof.Machine

/-! ### A held write -/

/-- Settles O19: each of the host's turns only takes itself off the list, by induction on their number;
and RST drops the held write, whatever else it resets. -/
theorem heldWriteBlocksTheHost : Obligations.HeldWriteBlocksTheHost := by
  refine ⟨fun k => ?_, fun s w rest hturns _ => ⟨_, step_rstAssert hturns, rfl, rfl⟩⟩
  induction k with
  | zero =>
    rintro s w rest hturns - - -
    have hrest : s.turns = rest := hturns
    rw [run_zero, ← hrest]
  | succ k ih =>
    intro s w rest hturns hr hb hheld
    have hstep : step s = .next { s with turns := List.replicate k .host ++ rest } :=
      step_host_held_busy hturns hr hb hheld
    rw [run_succ k hstep]
    exact ih _ w rest rfl hr hb hheld

/-! ### The resets -/

/-- With the reset values the block's output is the accepted stream alone (R251, R252). -/
theorem State.ResetValues.output_of_delivered {s t : State} (h : t.ResetValues)
    (hd : t.delivered = s.delivered) : t.output = s.stream :=
  h.output.trans (congrArg List.flatten hd)

theorem releaseReset_of_rst {s : State} (hr : s.rst = true) :
    releaseReset s = { softReset s with rst := false } := if_pos hr

theorem step_host_access_in_reset {s : State} {rest : List Turn} {a : Access} {as : List Access}
    (hturns : s.turns = .host :: rest) (hr : s.rst = true) (hheld : s.held = none)
    (hhost : s.host = a :: as) : step s = .refused .accessDuringReset := by
  simp [step_host hturns, hostTurn, hr, hheld, hhost]

/-- Settles O7: RST asserted, an access while it is asserted, and RST released. -/
theorem hardwareResetAbandonsAndRestores : Obligations.HardwareResetAbandonsAndRestores := by
  refine ⟨fun s rest hturns => ?asserted,
    fun s rest a as hturns hr hheld hhost => step_host_access_in_reset hturns hr hheld hhost,
    fun s rest hturns hr => ?released⟩
  case asserted =>
    have hvalues := assertReset_resetValues { s with turns := rest }
    exact ⟨_, step_rstAssert hturns, rfl, hvalues, rfl, hvalues.output_of_delivered rfl⟩
  case released =>
    have hstep : step s = .next { softReset { s with turns := rest } with rst := false } :=
      (step_rstRelease hturns).trans (congrArg _ (releaseReset_of_rst hr))
    have hvalues : { softReset { s with turns := rest } with rst := false }.ResetValues :=
      ⟨rfl, rfl, rfl, rfl, rfl, rfl, rfl⟩
    exact ⟨_, hstep, rfl, hvalues, rfl, hvalues.output_of_delivered rfl⟩

/-- Settles O8: the CTRL write is the soft reset, which writes the block's own elements only. -/
theorem softResetAbandonsAndRestores : Obligations.SoftResetAbandonsAndRestores := by
  intro s v hv
  have hvalues := softReset_resetValues s
  exact ⟨_, access_ctrl_of_bit_set hv s, hvalues, hvalues.output_of_delivered rfl, rfl⟩

/-! ### Every command completes -/

/-- A command that has something buffered again after the buffer was empty has done a unit: with no unit
done its output is the same, and the stream it is part of cannot shrink. -/
theorem Progress.lt_of_refilled {units : List (List Sample)} {bits : List Bool} {s u : State} {k j : Nat}
    (h : Progress units bits s k u j) (hkj : k ≤ j) (hs : s.occ = 0) (hu : 0 < u.occ) : k < j := by
  refine lt_of_le_of_ne hkj ?_
  rintro rfl
  obtain ⟨cs, hcs⟩ := h.chunks
  have hout : u.stream ++ u.buffered = s.stream ++ s.buffered := List.append_cancel_right h.samples
  have hlen := congrArg List.length hout
  have hempty : s.buffered.length = 0 := by simp [State.buffered, hs]
  have hstream : u.stream.length = s.stream.length + cs.flatten.length := by
    simp [State.stream, hcs]
  rw [List.length_append, List.length_append, buffered_length (h.ob_wf ▸ h.occ_le)] at hlen
  omega

/-- The body of `c`, gone on with an empty buffer, ends or waits at a later unit (R55, R56). -/
theorem State.Running.settle_idle_or_later {s : State} {c : InFlight} {f : Flow} (h : s.Running c)
    (hocc : s.occ = 0) (hc : c.AtWaitPoint)
    (hr : Runs f (appendUnits c.snapshot c.cmd) (foldedBits c.snapshot c.cmd) s c.done
      (waitPoints c.cmd)) :
    (settle f).Idle ∨ ∃ j, c.done < j ∧ (settle f).WaitsOn { c with done := j } := by
  rcases hr with ⟨t, rfl, hp⟩ | ⟨j, u, hkj, hj, rfl, hp, -, hpos⟩
  · exact .inl (hp.running h).settle_ran_idle
  · exact .inr ⟨j, hp.lt_of_refilled hkj hocc hpos, (hp.running h).offering_waitsOn hc hj hpos⟩

/-- The sink's acceptance carries the waiting command to its end or to a later unit (R57). -/
theorem State.WaitsOn.sinkTurn_idle_or_later {s : State} {c : InFlight} (h : s.WaitsOn c) :
    (sinkTurn s).Idle ∨ ∃ j, c.done < j ∧ (sinkTurn s).WaitsOn { c with done := j } := by
  rw [sinkTurn_of_offer h.pend h.cur]
  exact h.running.settle_idle_or_later (acceptChunk_occ s _) h.at_wait_point
    (h.running.resumeBody_runs h.at_wait_point)

theorem drain_of_idle {s : State} (h : s.Idle) (n : Nat) : drain n s = s := by
  cases n with
  | zero => rfl
  | succ n => simp [drain, h.busy]

theorem drain_succ_of_busy {s : State} (hb : s.busy = true) (n : Nat) :
    drain (n + 1) s = drain n (sinkTurn s) :=
  if_pos hb

/-- As many acceptances as the waiting command has wait points left complete it, by induction on their
number. -/
theorem State.WaitsOn.drain_idle {n : Nat} {s : State} {c : InFlight} (h : s.WaitsOn c)
    (hn : waitPoints c.cmd ≤ c.done + n) : (drain n s).Idle := by
  induction n generalizing s c with
  | zero => exact absurd h.at_wait_point.done_lt (Nat.not_lt.mpr hn)
  | succ n ih =>
    rw [drain_succ_of_busy h.busy]
    rcases h.sinkTurn_idle_or_later with hi | ⟨j, hj, hw⟩
    · rwa [drain_of_idle hi]
    · exact ih hw (show waitPoints c.cmd ≤ j + n by omega)

/-- A command executed in an idle block completes, after at most as many acceptances as it has wait
points. -/
theorem State.Idle.exec_drain_idle {s : State} (h : s.Idle) (i : Instr) :
    ∃ u, exec i s = .next u ∧ (drain (waitPoints i) u).Idle := by
  obtain ⟨u, hu, hi | ⟨c, hc, rfl⟩⟩ := h.exec_settles i
  · exact ⟨u, hu, (drain_of_idle hi _).symm ▸ hi⟩
  · exact ⟨u, hu, hc.drain_idle (Nat.le_add_left _ _)⟩

/-- Settles O42: the command completes within its wait points, and a completed command has produced its
samples (`Completes.idle_output`) and folded its bits (`Completes.crc`). -/
theorem everyCommandCompletes : Obligations.EveryCommandCompletes := by
  intro i s _ hs hb _ _
  have hidle := hs.idle hb
  obtain ⟨u, hu, hend⟩ := hidle.exec_drain_idle i
  have hcomplete : Completes i s (drain (waitPoints i) u) :=
    ⟨u, waitPoints i, hu, rfl, hend.busy⟩
  obtain ⟨-, hout⟩ := hcomplete.idle_output hidle
  exact ⟨u, hu, waitPoints i, le_rfl, hend.busy, hend.cur, hend.pend, hout, hcomplete.crc hidle⟩

end Sys2Proof.Machine
end
